-- ==== Sys2Proof/Word.lean ====
section
/-! DEFINITION. The bit-vector types of the Madoxen CHIP-8 CORE. Every value is an unsigned integer
(00_scope.md R8); the instruction fields are those of 30_encoding.md R102. -/

namespace Sys2Proof

/-- An 8-bit value: a register, a memory byte, a timer or the immediate `nn` (R6 `REG_WIDTH`, R102). -/
abbrev Byte := BitVec 8

/-- A 16-bit value: an instruction word, `pc` or `I` (R6 `PC_WIDTH`, `I_WIDTH`; R100). -/
abbrev Word := BitVec 16

/-- A 4-bit field of an instruction word: a register index `x` or `y`, or the count `n` (R102). -/
abbrev Nibble := BitVec 4

/-- The 12-bit immediate address `nnn` (R102). -/
abbrev Addr12 := BitVec 12

end Sys2Proof
end

