-- ==== Sys2Proof/Config.lean ====
section
/-! DEFINITION. What the spec leaves open: the parameters of 00_scope.md R7, which "the model takes
as an argument" (they stand in `State.params` and no step changes them: log 1), and the one free
value, the random byte of 42_alu.md R194 (log 3). -/

namespace Sys2Proof

/-- `sub_reverse_dest` (R7, R192, D10): the destination register of `8xy7`. -/
inductive SubReverseDest where
  | vy
  | vx
  deriving DecidableEq, Repr

/-- `flag_write_order` (R7, R182, D9): which write of a flag-writing ALU instruction comes last, and so
stays when the destination is VF. -/
inductive FlagWriteOrder where
  | resultLast
  | flagLast
  deriving DecidableEq, Repr

/-- The open parameters of R7. -/
structure Params where
  /-- `STACK_DEPTH`: the capacity of the call stack; `none` is `unbounded` (D16). -/
  stackDepth : Option Nat
  /-- `FONT`: the 80 bytes at 0x050 to 0x09F after construction (D26). -/
  font : Vector Byte 80
  /-- `index_overflow_vf`: whether `Fx1E` writes VF (D11). -/
  indexOverflowVf : Bool
  /-- `sub_reverse_dest` (D10). -/
  subReverseDest : SubReverseDest
  /-- `flag_write_order` (D9). -/
  flagWriteOrder : FlagWriteOrder
  deriving DecidableEq, Repr

/-- PRESUMED: the conventional CHIP-8 font of 70_reset_and_hazards.md R302, which the spec itself marks
as general knowledge; one line per glyph, 0 to F (log 2). -/
def conventionalFont : Vector Byte 80 :=
  #v[0xF0, 0x90, 0x90, 0x90, 0xF0,
     0x20, 0x60, 0x20, 0x20, 0x70,
     0xF0, 0x10, 0xF0, 0x80, 0xF0,
     0xF0, 0x10, 0xF0, 0x10, 0xF0,
     0x90, 0x90, 0xF0, 0x10, 0x10,
     0xF0, 0x80, 0xF0, 0x10, 0xF0,
     0xF0, 0x80, 0xF0, 0x90, 0xF0,
     0xF0, 0x10, 0x20, 0x40, 0x40,
     0xF0, 0x90, 0xF0, 0x90, 0xF0,
     0xF0, 0x90, 0xF0, 0x10, 0xF0,
     0xF0, 0x90, 0xF0, 0x90, 0x90,
     0xE0, 0x90, 0xE0, 0x90, 0xE0,
     0xF0, 0x80, 0x80, 0x80, 0xF0,
     0xE0, 0x90, 0x90, 0x90, 0xE0,
     0xF0, 0x80, 0xF0, 0x80, 0xF0,
     0xF0, 0x80, 0xF0, 0x80, 0x80]

/-- DESIGN CHOICE: the default of every open parameter, as the table of R7 lists them (log 1). -/
def Params.default : Params where
  stackDepth := none
  font := conventionalFont
  indexOverflowVf := false
  subReverseDest := .vy
  flagWriteOrder := .resultLast

/-- The byte the random source gives at its `k`-th draw: "a free 8-bit input under no law" (60_exceptions.md
R279, D17, U1). It has no body, so a proof about it holds for every value (log 3). -/
opaque Config.randByte : Nat → Byte

end Sys2Proof
end

