-- ==== Sys2Proof/Syntax.lean ====
section
/-! DEFINITION. The 31 instructions of 30_encoding.md R107, one constructor per row of
spec/opcode_table.json, in the table's order. The fields are those of R102. -/

namespace Sys2Proof

/-- An instruction; each constructor names its word and its rule. -/
inductive Instr where
  /-- `00E0` clear (40_display.md R130). -/
  | clear
  /-- `00EE` return (41_control_flow.md R151). -/
  | ret
  /-- `1nnn` jump (R152). -/
  | jump (nnn : Addr12)
  /-- `2nnn` call (R153). -/
  | call (nnn : Addr12)
  /-- `3xnn` skip-eq-imm (R154). -/
  | skipEqImm (x : Nibble) (nn : Byte)
  /-- `4xnn` skip-ne-imm (R155). -/
  | skipNeImm (x : Nibble) (nn : Byte)
  /-- `5xy0` skip-eq-reg (R156). -/
  | skipEqReg (x y : Nibble)
  /-- `6xnn` load-imm (42_alu.md R183). -/
  | loadImm (x : Nibble) (nn : Byte)
  /-- `7xnn` add-imm (R184). -/
  | addImm (x : Nibble) (nn : Byte)
  /-- `8xy0` copy (R185). -/
  | copy (x y : Nibble)
  /-- `8xy1` or (R186). -/
  | or (x y : Nibble)
  /-- `8xy2` and (R187). -/
  | and (x y : Nibble)
  /-- `8xy3` xor (R188). -/
  | xor (x y : Nibble)
  /-- `8xy4` add (R189). -/
  | add (x y : Nibble)
  /-- `8xy5` sub (R190). -/
  | sub (x y : Nibble)
  /-- `8xy6` shift-right (R191); `y` is encoded but not read. -/
  | shiftRight (x y : Nibble)
  /-- `8xy7` sub-reverse (R192). -/
  | subReverse (x y : Nibble)
  /-- `8xyE` shift-left (R193); `y` is encoded but not read. -/
  | shiftLeft (x y : Nibble)
  /-- `9xy0` skip-ne-reg (R157). -/
  | skipNeReg (x y : Nibble)
  /-- `Annn` load-index (43_index_memory.md R220). -/
  | loadIndex (nnn : Addr12)
  /-- `Bnnn` jump-offset (R158). -/
  | jumpOffset (nnn : Addr12)
  /-- `Cxnn` random (R194). -/
  | random (x : Nibble) (nn : Byte)
  /-- `Dxyn` draw-sprite (R131). -/
  | drawSprite (x y n : Nibble)
  /-- `Fx07` read-delay (44_timers_keys.md R240). -/
  | readDelay (x : Nibble)
  /-- `Fx0A` block-for-key (R243, R244). -/
  | blockForKey (x : Nibble)
  /-- `Fx15` set-delay (R241). -/
  | setDelay (x : Nibble)
  /-- `Fx18` set-sound (R242). -/
  | setSound (x : Nibble)
  /-- `Fx1E` add-to-index (R221). -/
  | addToIndex (x : Nibble)
  /-- `Fx33` bcd (R222). -/
  | bcd (x : Nibble)
  /-- `Fx55` store-regs (R223). -/
  | storeRegs (x : Nibble)
  /-- `Fx65` load-regs (R224). -/
  | loadRegs (x : Nibble)
  deriving DecidableEq, Repr

end Sys2Proof
end

