-- ==== Sys2Proof/WellFormed.lean ====
section
/-! DEFINITION. What is well formed before anything runs. The field types of `Instr` admit exactly the
values the encoding of 30_encoding.md R102 has room for, so every `Instr` is well formed; what can be ill
formed is an instruction WORD (R107 to R114), a choice of parameters (00_scope.md R7) and the length of a
program (70_reset_and_hazards.md R301). The checks below refuse those. -/

namespace Sys2Proof

/-- One row of the opcode map R107. -/
structure OpcodeRow where
  pattern : Word
  mask : Word
  deriving DecidableEq, Repr

/-- "A word selects the row whose `(w & mask) == match`" (R107). -/
def OpcodeRow.selects (r : OpcodeRow) (w : Word) : Bool := w &&& r.mask == r.pattern

/-- The opcode map of R107, in the table's order. -/
def opcodeMap : List OpcodeRow :=
  [⟨0x00E0, 0xFFFF⟩, ⟨0x00EE, 0xFFFF⟩, ⟨0x1000, 0xF000⟩, ⟨0x2000, 0xF000⟩, ⟨0x3000, 0xF000⟩, ⟨0x4000, 0xF000⟩, ⟨0x5000, 0xF00F⟩, ⟨0x6000, 0xF000⟩] ++
  [⟨0x7000, 0xF000⟩, ⟨0x8000, 0xF00F⟩, ⟨0x8001, 0xF00F⟩, ⟨0x8002, 0xF00F⟩, ⟨0x8003, 0xF00F⟩, ⟨0x8004, 0xF00F⟩, ⟨0x8005, 0xF00F⟩, ⟨0x8006, 0xF00F⟩] ++
  [⟨0x8007, 0xF00F⟩, ⟨0x800E, 0xF00F⟩, ⟨0x9000, 0xF00F⟩, ⟨0xA000, 0xF000⟩, ⟨0xB000, 0xF000⟩, ⟨0xC000, 0xF000⟩, ⟨0xD000, 0xF000⟩, ⟨0xF007, 0xF0FF⟩] ++
  [⟨0xF00A, 0xF0FF⟩, ⟨0xF015, 0xF0FF⟩, ⟨0xF018, 0xF0FF⟩, ⟨0xF01E, 0xF0FF⟩, ⟨0xF033, 0xF0FF⟩, ⟨0xF055, 0xF0FF⟩, ⟨0xF065, 0xF0FF⟩]

/-- The row of R107 an instruction belongs to. -/
def Instr.row : Instr → OpcodeRow
  | .clear => ⟨0x00E0, 0xFFFF⟩
  | .ret => ⟨0x00EE, 0xFFFF⟩
  | .jump _ => ⟨0x1000, 0xF000⟩
  | .call _ => ⟨0x2000, 0xF000⟩
  | .skipEqImm _ _ => ⟨0x3000, 0xF000⟩
  | .skipNeImm _ _ => ⟨0x4000, 0xF000⟩
  | .skipEqReg _ _ => ⟨0x5000, 0xF00F⟩
  | .loadImm _ _ => ⟨0x6000, 0xF000⟩
  | .addImm _ _ => ⟨0x7000, 0xF000⟩
  | .copy _ _ => ⟨0x8000, 0xF00F⟩
  | .or _ _ => ⟨0x8001, 0xF00F⟩
  | .and _ _ => ⟨0x8002, 0xF00F⟩
  | .xor _ _ => ⟨0x8003, 0xF00F⟩
  | .add _ _ => ⟨0x8004, 0xF00F⟩
  | .sub _ _ => ⟨0x8005, 0xF00F⟩
  | .shiftRight _ _ => ⟨0x8006, 0xF00F⟩
  | .subReverse _ _ => ⟨0x8007, 0xF00F⟩
  | .shiftLeft _ _ => ⟨0x800E, 0xF00F⟩
  | .skipNeReg _ _ => ⟨0x9000, 0xF00F⟩
  | .loadIndex _ => ⟨0xA000, 0xF000⟩
  | .jumpOffset _ => ⟨0xB000, 0xF000⟩
  | .random _ _ => ⟨0xC000, 0xF000⟩
  | .drawSprite _ _ _ => ⟨0xD000, 0xF000⟩
  | .readDelay _ => ⟨0xF007, 0xF0FF⟩
  | .blockForKey _ => ⟨0xF00A, 0xF0FF⟩
  | .setDelay _ => ⟨0xF015, 0xF0FF⟩
  | .setSound _ => ⟨0xF018, 0xF0FF⟩
  | .addToIndex _ => ⟨0xF01E, 0xF0FF⟩
  | .bcd _ => ⟨0xF033, 0xF0FF⟩
  | .storeRegs _ => ⟨0xF055, 0xF0FF⟩
  | .loadRegs _ => ⟨0xF065, 0xF0FF⟩

/-- A well-formed instruction word: one that some row of R107 selects. Every other word is invalid
(R108 to R113). -/
def wordWellFormed (w : Word) : Bool := opcodeMap.any fun r => r.selects w

/-- `STACK_DEPTH` is a "natural number ≥ 1, or `unbounded`" (R7). The other parameters' types admit only
legal values. -/
def Params.wellFormed (p : Params) : Bool :=
  match p.stackDepth with
  | none => true
  | some d => decide (1 ≤ d)

/-- `MAX_PROGRAM`: 4096 − 0x200 = 3584 bytes (R6). -/
def maxProgram : Nat := 3584

/-- A program that construction accepts (R300, R301). -/
def programFits (program : List Byte) : Bool := decide (program.length ≤ maxProgram)

end Sys2Proof
end

