-- ==== Sys2Proof/Decode.lean ====
section
/-! DEFINITION. Decode (30_encoding.md R102, R106 to R114) and the encoder written from the same
layouts (R105, R107). An instruction is one 16-bit word of two bytes, the high byte first
(20_memory.md R77, 30_encoding.md R100). -/

namespace Sys2Proof

/-- Why a sequence of bytes is no instruction. -/
inductive DecodeReject where
  /-- Fewer than the two bytes every instruction takes (R100). -/
  | tooShort
  /-- "Any other combination is an unimplemented/invalid-opcode condition" (R113). -/
  | invalidOpcode (w : Word)
  deriving DecidableEq, Repr

/-- `w[15:12]`, the opcode class (R102). -/
def classOf (w : Word) : Nibble := w.extractLsb' 12 4
/-- `w[11:8]`, register index `x` (R102). -/
def xOf (w : Word) : Nibble := w.extractLsb' 8 4
/-- `w[7:4]`, register index `y` (R102). -/
def yOf (w : Word) : Nibble := w.extractLsb' 4 4
/-- `w[3:0]`, immediate `n` (R102). -/
def nOf (w : Word) : Nibble := w.extractLsb' 0 4
/-- `w[7:0]`, immediate `nn` (R102). -/
def nnOf (w : Word) : Byte := w.extractLsb' 0 8
/-- `w[11:0]`, immediate `nnn` (R102). -/
def nnnOf (w : Word) : Addr12 := w.extractLsb' 0 12

/-- The instruction word of two consecutive bytes, big-endian (20_memory.md R77). -/
def wordOfBytes (hi lo : Byte) : Word := hi ++ lo
/-- The byte at the lower address, `w[15:8]` (R77). -/
def highByte (w : Word) : Byte := w.extractLsb' 8 8
/-- The byte at the higher address, `w[7:0]` (R77). -/
def lowByte (w : Word) : Byte := w.extractLsb' 0 8

/-- Secondary dispatch of class 0x8 on `n` (R106, R110). -/
def decodeClass8 (x y n : Nibble) : Option Instr :=
  match n.toNat with
  | 0x0 => some (.copy x y)
  | 0x1 => some (.or x y)
  | 0x2 => some (.and x y)
  | 0x3 => some (.xor x y)
  | 0x4 => some (.add x y)
  | 0x5 => some (.sub x y)
  | 0x6 => some (.shiftRight x y)
  | 0x7 => some (.subReverse x y)
  | 0xE => some (.shiftLeft x y)
  | _ => none

/-- Secondary dispatch of class 0xF on `nn` (R106, R112). -/
def decodeClassF (x : Nibble) (nn : Byte) : Option Instr :=
  match nn.toNat with
  | 0x07 => some (.readDelay x)
  | 0x0A => some (.blockForKey x)
  | 0x15 => some (.setDelay x)
  | 0x18 => some (.setSound x)
  | 0x1E => some (.addToIndex x)
  | 0x33 => some (.bcd x)
  | 0x55 => some (.storeRegs x)
  | 0x65 => some (.loadRegs x)
  | _ => none

/-- Decode of one word: dispatch on the class (R106), with the exact-match rule for class 0x0 (R108),
`n` = 0 for classes 0x5 and 0x9 (R109) and no instruction of class 0xE (R111). -/
def decodeWord (w : Word) : Option Instr :=
  match (classOf w).toNat with
  | 0x0 => if w = 0x00E0 then some .clear else if w = 0x00EE then some .ret else none
  | 0x1 => some (.jump (nnnOf w))
  | 0x2 => some (.call (nnnOf w))
  | 0x3 => some (.skipEqImm (xOf w) (nnOf w))
  | 0x4 => some (.skipNeImm (xOf w) (nnOf w))
  | 0x5 => if nOf w = 0 then some (.skipEqReg (xOf w) (yOf w)) else none
  | 0x6 => some (.loadImm (xOf w) (nnOf w))
  | 0x7 => some (.addImm (xOf w) (nnOf w))
  | 0x8 => decodeClass8 (xOf w) (yOf w) (nOf w)
  | 0x9 => if nOf w = 0 then some (.skipNeReg (xOf w) (yOf w)) else none
  | 0xA => some (.loadIndex (nnnOf w))
  | 0xB => some (.jumpOffset (nnnOf w))
  | 0xC => some (.random (xOf w) (nnOf w))
  | 0xD => some (.drawSprite (xOf w) (yOf w) (nOf w))
  | 0xF => decodeClassF (xOf w) (nnOf w)
  | _ => none

/-- Decode of a sequence of bytes: exactly two bytes are consumed (R100). -/
def decode (bytes : List Byte) : Except DecodeReject (Instr × List Byte) :=
  match bytes with
  | hi :: lo :: rest =>
    match decodeWord (wordOfBytes hi lo) with
    | some i => .ok (i, rest)
    | none => .error (.invalidOpcode (wordOfBytes hi lo))
  | _ => .error .tooShort

/-- Format NNN: `cccc aaaa aaaa aaaa` (R105). -/
def packNNN (c : Nibble) (nnn : Addr12) : Word := c ++ nnn
/-- Format XNN, and XF with a fixed function code: `cccc xxxx kkkk kkkk` (R105). -/
def packXNN (c x : Nibble) (nn : Byte) : Word := c ++ x ++ nn
/-- Format XYN, and XYF with a fixed function code: `cccc xxxx yyyy nnnn` (R105). -/
def packXYN (c x y n : Nibble) : Word := c ++ x ++ y ++ n

/-- The word of an instruction, from the formats of R105 and the opcode map R107. -/
def encode : Instr → Word
  | .clear => 0x00E0
  | .ret => 0x00EE
  | .jump nnn => packNNN 0x1 nnn
  | .call nnn => packNNN 0x2 nnn
  | .skipEqImm x nn => packXNN 0x3 x nn
  | .skipNeImm x nn => packXNN 0x4 x nn
  | .skipEqReg x y => packXYN 0x5 x y 0x0
  | .loadImm x nn => packXNN 0x6 x nn
  | .addImm x nn => packXNN 0x7 x nn
  | .copy x y => packXYN 0x8 x y 0x0
  | .or x y => packXYN 0x8 x y 0x1
  | .and x y => packXYN 0x8 x y 0x2
  | .xor x y => packXYN 0x8 x y 0x3
  | .add x y => packXYN 0x8 x y 0x4
  | .sub x y => packXYN 0x8 x y 0x5
  | .shiftRight x y => packXYN 0x8 x y 0x6
  | .subReverse x y => packXYN 0x8 x y 0x7
  | .shiftLeft x y => packXYN 0x8 x y 0xE
  | .skipNeReg x y => packXYN 0x9 x y 0x0
  | .loadIndex nnn => packNNN 0xA nnn
  | .jumpOffset nnn => packNNN 0xB nnn
  | .random x nn => packXNN 0xC x nn
  | .drawSprite x y n => packXYN 0xD x y n
  | .readDelay x => packXNN 0xF x 0x07
  | .blockForKey x => packXNN 0xF x 0x0A
  | .setDelay x => packXNN 0xF x 0x15
  | .setSound x => packXNN 0xF x 0x18
  | .addToIndex x => packXNN 0xF x 0x1E
  | .bcd x => packXNN 0xF x 0x33
  | .storeRegs x => packXNN 0xF x 0x55
  | .loadRegs x => packXNN 0xF x 0x65

/-- The bytes of an instruction as memory holds them, lower address first (R77). -/
def encodeBytes (i : Instr) : List Byte := [highByte (encode i), lowByte (encode i)]

/-- The word whose bits are the low `nbits` bits of `w`, every other bit 0. -/
def tableWord (nbits w : Nat) : Word := BitVec.ofNat 16 (w % 2 ^ nbits)

/-- The instruction the decoder reads from the word the opcode table numbers `w`, laid out as memory
holds it: the high byte first (R77). -/
def decodeTableWord (nbits w : Nat) : Option Instr :=
  match decode [highByte (tableWord nbits w), lowByte (tableWord nbits w)] with
  | .ok (i, _) => some i
  | .error _ => none

end Sys2Proof
end

