-- ==== Sys2Proof/Machine/State.lean ====
section
/-! DEFINITION. The state of the machine: the architectural state of 10_state.md R47, the open
parameters of 00_scope.md R7, and the model's own fields that stand for the ports of 60_exceptions.md
R275. The reset values are those of R48. -/

namespace Sys2Proof.Machine

/-- Memory: the listed bytes that differ from what an unlisted address reads as (`Memory.unlisted`),
addresses strictly rising (`Memory.wf`). -/
abbrev Memory := List Host.Cell

/-- The frame buffer, rows top to bottom, each of 64 columns left to right (R37): `fb[c][r]` of the
spec is column `c` of row `r`. -/
abbrev FrameBuffer := Vector (Vector Bool 64) 32

/-- What a `FramePush` carries: 2048 pixels, row-major (40_display.md R132). -/
abbrev Snapshot := Vector Bool 2048

/-- The run state with its `WaitKey` sub-state (R42, R43). The spec's `Stopped` is split in two, because
`start` is accepted only once, from the initial `Stopped` (R42, D21; log 8). -/
inductive RunState where
  /-- `Stopped`, before `start`. -/
  | stoppedInitial
  /-- `Running`, ready to fetch. -/
  | running
  /-- `Running`, waiting for a key for register `x` (R43). -/
  | waitKey (x : Nibble)
  /-- `Stopped`, reached from `Running`: final for the run (R42). -/
  | stoppedFinal
  deriving DecidableEq, Repr

/-- The kinds of fatal error of 60_exceptions.md R261. -/
inductive FatalKind where
  | programTooLarge
  | fetchOutOfBounds
  | invalidOpcode
  | stackUnderflow
  | stackOverflow
  | dataOutOfBounds
  | keySourceClosed
  deriving DecidableEq, Repr

/-- The fault record of R262. -/
structure FaultRecord where
  kind : FatalKind
  /-- The address of the instruction being fetched or executed. -/
  addr : Word
  /-- The instruction word, where one was fetched. -/
  word : Option Word
  /-- For `DataOutOfBounds`, the first address of the access at or above 0x1000. -/
  dataAddr : Option Word
  deriving DecidableEq, Repr

/-- An event of the Key Source (R277): a key code 0x0 to 0xF (R278), or permanent closure. -/
inductive KeyEvent where
  | key (k : Nibble)
  | closed
  deriving DecidableEq, Repr

/-- One move of one agent (R51): the engine's step, the ticker's tick, or an action of the host. -/
inductive Turn where
  /-- The engine takes its step. -/
  | engine
  /-- The ticker ticks (R271). -/
  | tick
  /-- The host requests Stopped → Running (R276). -/
  | start
  /-- The host requests Running → Stopped (R276). -/
  | halt
  /-- The host hands the Key Source an event, delivered after those already queued (R277). -/
  | key (e : KeyEvent)
  deriving DecidableEq, Repr

/-- The machine's state. `V` to `fault` are the architectural state of R47, under the spec's names. -/
structure State where
  /-- The 16 general registers (R30). -/
  V : Vector Byte 16
  /-- The index register (R34). -/
  I : Word
  /-- The program counter (R35). -/
  pc : Word
  /-- The call stack, the most recently pushed value first (R36). -/
  stack : List Word
  /-- The 4096-byte memory (R46). -/
  mem : Memory
  /-- The frame buffer (R37). -/
  fb : FrameBuffer
  /-- The delay timer (R39). -/
  DT : Byte
  /-- The sound timer (R39). -/
  ST : Byte
  /-- The run state (R42, R43). -/
  run : RunState
  /-- The fault record (R44). -/
  fault : Option FaultRecord
  /-- The open parameters (R7); no step changes them (log 1). -/
  params : Params
  /-- The model's own: the frames pushed to the Frame Sink, oldest first (R280; log 6). -/
  frames : List Snapshot
  /-- The model's own: the events the Key Source will deliver, next first (R277; log 5). -/
  keys : List KeyEvent
  /-- The model's own: the agents' moves still to come, next first; when none is left the engine alone
  moves (R51, R267; log 4). -/
  schedule : List Turn
  /-- The model's own: how many bytes the random source has given (R279; log 3). -/
  randDraws : Nat
  deriving DecidableEq, Repr

/-- Why no agent has a step. The spec's fatal errors are NOT here: they are taken, as states with the
fault record set (60_exceptions.md R260; log 7). -/
inductive Fault where
  /-- Raised by the engine's step in the initial `Stopped`: nothing has requested `start` (R276).
  Safe: the hardware has no step there either. -/
  | notStarted
  /-- Raised by the engine's step once the run has ended (R42, R53, R115). Safe: the hardware has no step. -/
  | runEnded
  /-- Raised by the engine's step in `WaitKey` while the Key Source offers no event: "the engine has no
  step in `WaitKey` until the host offers one" (R277, U11). Safe: the hardware waits too. -/
  | waitingForKey
  deriving DecidableEq, Repr

/-- Why an instruction has no meaning. -/
inductive Refusal where
  /-- Raised by an arm of `exec` for an instruction not modelled yet; no arm does. Safe. -/
  | notModelled (mnemonic : String)
  deriving DecidableEq, Repr

/-- What one step answers. -/
abbrev Result := Host.Outcome State Fault Refusal

/-- The machine right after construction with an empty program and the default parameters: the reset
table of 10_state.md R48, 70_reset_and_hazards.md R303. Memory lists nothing: an unlisted address reads
as construction leaves it. -/
def State.reset : State where
  V := Vector.replicate 16 0
  I := 0
  pc := 0x200
  stack := []
  mem := []
  fb := Vector.replicate 32 (Vector.replicate 64 false)
  DT := 0
  ST := 0
  run := .stoppedInitial
  fault := none
  params := Params.default
  frames := []
  keys := []
  schedule := []
  randDraws := 0

end Sys2Proof.Machine
end

