-- ==== Sys2Proof/Machine/Ops.lean ====
section
/-! DEFINITION. The named operations over memory, registers, stack, frame buffer, timers and ports, and
the one shared operation that takes a fatal error (60_exceptions.md R260 to R263). There is no return
from a fault (R264). -/

namespace Sys2Proof.Machine

/-! ### General registers -/

/-- `V[x]` (R10, R31). -/
def State.reg (s : State) (x : Nibble) : Byte := s.V[x.toNat]

/-- `V[x] <- b` (R10, R31); no register is hardwired. -/
def State.setReg (x : Nibble) (b : Byte) (s : State) : State := { s with V := s.V.set x.toNat b }

/-! ### Memory -/

/-- What an address reads as before anything is written there: FONT at 0x050 to 0x09F and 0 elsewhere, as
construction leaves memory (R73, R302; log 12). -/
def Memory.unlisted (font : Vector Byte 80) (a : Nat) : Byte :=
  if h : 0x050 ≤ a ∧ a < 0x0A0 then font[a - 0x050] else 0

/-- `MemRead(a, 1)` (R11, R76). -/
def Memory.read (font : Vector Byte 80) (a : Nat) : Memory → Byte
  | [] => Memory.unlisted font a
  | c :: m => if c.1 = a then c.2 else Memory.read font a m

/-- A cell in front of a memory, left out when it says what an unlisted address reads as anyway. -/
def Memory.consCell (font : Vector Byte 80) (a : Nat) (b : Byte) (m : Memory) : Memory :=
  if b = Memory.unlisted font a then m else (a, b) :: m

/-- `MemWrite(a, 1, b)` (R11, R76), keeping the canonical form `Memory.wf`. -/
def Memory.write (font : Vector Byte 80) (a : Nat) (b : Byte) : Memory → Memory
  | [] => Memory.consCell font a b []
  | c :: m =>
    if a < c.1 then Memory.consCell font a b (c :: m)
    else if a = c.1 then Memory.consCell font a b m
    else c :: Memory.write font a b m

/-- Single-byte writes at ascending addresses from `a` (R76). -/
def Memory.writeBytes (font : Vector Byte 80) : Nat → List Byte → Memory → Memory
  | _, [], m => m
  | a, b :: bs, m => Memory.writeBytes font (a + 1) bs (Memory.write font a b m)

/-- The canonical form: addresses strictly rising, inside 0x000 to 0xFFF (R70), and no entry equal to
what an unlisted address reads as. -/
abbrev Memory.wf (font : Vector Byte 80) (m : Memory) : Prop :=
  m.Pairwise (fun c d => c.1 < d.1) ∧ ∀ c ∈ m, c.1 < 0x1000 ∧ c.2 ≠ Memory.unlisted font c.1

/-- The byte at address `a` of the machine's memory. -/
def State.readByte (s : State) (a : Nat) : Byte := Memory.read s.params.font a s.mem

/-- The `n` bytes from address `a`, at ascending addresses (R76). -/
def State.readBytes (s : State) (a n : Nat) : List Byte := (List.range n).map fun k => s.readByte (a + k)

/-- The bytes `bs` written from address `a`, at ascending addresses (R76). -/
def State.writeBytes (a : Nat) (bs : List Byte) (s : State) : State :=
  { s with mem := Memory.writeBytes s.params.font a bs s.mem }

/-- `V[k] <- MemRead(a + k, 1)` for `k` in 0 .. n − 1, ascending (R224). -/
def State.loadRegsFrom (a : Nat) : Nat → State → State
  | 0, s => s
  | k + 1, s =>
    let s' := State.loadRegsFrom a k s
    s'.setReg (BitVec.ofNat 4 k) (s'.readByte (a + k))

/-- `V[0]`, `V[1]`, … of the first `n` registers (R223). -/
def State.firstRegs (s : State) (n : Nat) : List Byte :=
  (List.range n).map fun k => s.reg (BitVec.ofNat 4 k)

/-! ### Fatal errors -/

/-- The code of a fatal error (R261); a label only (D3). -/
def FatalKind.code : FatalKind → Nat
  | .programTooLarge => 1
  | .fetchOutOfBounds => 2
  | .invalidOpcode => 3
  | .stackUnderflow => 4
  | .stackOverflow => 5
  | .dataOutOfBounds => 6
  | .keySourceClosed => 7

/-- `raise Fatal(kind, …)` (R12, R260, R262): the engine stops, the fault record is set and nothing else
changes (R263; log 7). -/
def State.fatal (r : FaultRecord) (s : State) : State :=
  { s with run := .stoppedFinal, fault := some r }

/-- The fatal error of an instruction in execution: its address is `pc − 2`, since the fetch has advanced
`pc` (R35, R244, R263), and its word is its encoding. -/
def State.fatalIn (i : Instr) (kind : FatalKind) (dataAddr : Option Word) (s : State) : State :=
  s.fatal { kind := kind, addr := s.pc - 2, word := some (encode i), dataAddr := dataAddr }

/-! ### Fetch -/

/-- The fetch of R101: `none` when `pc + 1` is past memory (computed without wrapping), else the word,
high byte first, and the state with `pc` advanced by 2. -/
def State.fetch (s : State) : Option (Word × State) :=
  if s.pc.toNat + 1 > 0xFFF then none
  else some (wordOfBytes (s.readByte s.pc.toNat) (s.readByte (s.pc.toNat + 1)), { s with pc := s.pc + 2 })

/-- The skip of R150: 2 more is added to `pc` when the condition holds. -/
def State.skipIf (c : Bool) (s : State) : State := if c then { s with pc := s.pc + 2 } else s

/-! ### Call stack -/

/-- Whether a `call` finds the stack full (R153). -/
def State.stackFull (s : State) : Bool :=
  match s.params.stackDepth with
  | none => false
  | some d => s.stack.length == d

/-! ### Frame buffer and Frame Sink -/

/-- `fb[c][r]` (R37). -/
def FrameBuffer.pixel (f : FrameBuffer) (c : Fin 64) (r : Fin 32) : Bool := (f[r])[c]

/-- `fb[c][r] <- b`. -/
def FrameBuffer.setPixel (c : Fin 64) (r : Fin 32) (b : Bool) (f : FrameBuffer) : FrameBuffer :=
  f.set r ((f[r]).set c b)

/-- The all-false frame buffer (R130). -/
def FrameBuffer.blank : FrameBuffer := Vector.replicate 32 (Vector.replicate 64 false)

/-- The snapshot of R132: element `k` is `fb[k mod 64][k / 64]`. -/
def FrameBuffer.snapshot (f : FrameBuffer) : Snapshot := Vector.ofFn fun k : Fin 2048 => (f[k.val / 64])[k.val % 64]

/-- The bits of a sprite byte, most significant first (R131). -/
def spriteBits (b : Byte) : List Bool := (List.range 8).map fun k => b.getLsbD (7 - k)

/-- One sprite bit at column `c`, row `r` (R131): dropped outside the grid, else XORed; the second
component records an on→off transition and is never cleared. -/
def drawPixel (c r : Nat) (bit : Bool) (p : FrameBuffer × Bool) : FrameBuffer × Bool :=
  if h : c < 64 ∧ r < 32 then
    let old := FrameBuffer.pixel p.1 ⟨c, h.1⟩ ⟨r, h.2⟩
    (FrameBuffer.setPixel ⟨c, h.1⟩ ⟨r, h.2⟩ (old ^^ bit) p.1, p.2 || (old && bit))
  else p

/-- The bits of one sprite row, from column `c` of row `r` (R131). -/
def drawBits (r : Nat) : Nat → List Bool → FrameBuffer × Bool → FrameBuffer × Bool
  | _, [], p => p
  | c, b :: bs, p => drawBits r (c + 1) bs (drawPixel c r b p)

/-- The rows of a sprite, from row `r` down, each anchored at column `c` (R131). -/
def drawRows (c : Nat) : Nat → List Byte → FrameBuffer × Bool → FrameBuffer × Bool
  | _, [], p => p
  | r, b :: bs, p => drawRows c (r + 1) bs (drawBits r c (spriteBits b) p)

/-- `fb[c][r]` of the machine's frame buffer (R37). -/
def State.pixel (s : State) (c : Fin 64) (r : Fin 32) : Bool := FrameBuffer.pixel s.fb c r

/-- `emit FramePush(fb)` (R132, R280): one more frame at the Frame Sink (log 6). -/
def State.pushFrame (s : State) : State := { s with frames := s.frames ++ [FrameBuffer.snapshot s.fb] }

/-! ### Random source -/

/-- `draw Rand()` (R12, R279): the next byte of the random source, a free value (log 3), and the state
after the draw. -/
def State.drawRand (s : State) : Byte × State :=
  (Config.randByte s.randDraws, { s with randDraws := s.randDraws + 1 })

/-! ### Timer Unit and host -/

/-- Whether the engine is `Running`, ready or waiting (R43). -/
def RunState.isRunning : RunState → Bool
  | .running => true
  | .waitKey _ => true
  | .stoppedInitial => false
  | .stoppedFinal => false

/-- One counter's tick: "a tick when already at zero is a no-op" (R40, R271). -/
def tickCounter (t : Byte) : Byte := if t = 0 then 0 else t - 1

/-- `Tick` (R271), which occurs only while the engine is `Running` (R272). -/
def State.tick (s : State) : State :=
  if s.run.isRunning then { s with DT := tickCounter s.DT, ST := tickCounter s.ST } else s

/-- `start` (R276): the initial `Stopped` becomes `Running`; no effect in any other state. -/
def State.start (s : State) : State :=
  match s.run with
  | .stoppedInitial => { s with run := .running }
  | .running => s
  | .waitKey _ => s
  | .stoppedFinal => s

/-- `halt` (R276): a `Running` engine, waiting or not, becomes `Stopped` with no fault; a wait is
abandoned (D20). -/
def State.halt (s : State) : State :=
  if s.run.isRunning then { s with run := .stoppedFinal } else s

/-- The host hands the Key Source an event, behind those it holds (R277; log 5). -/
def State.offerKey (e : KeyEvent) (s : State) : State := { s with keys := s.keys ++ [e] }

/-- The port `delay_value` (R281). -/
def State.delayValue (s : State) : Byte := s.DT

/-- The port `sound_value` (R281). -/
def State.soundValue (s : State) : Byte := s.ST

/-- The port `status` (R275, R281): the run state and the fault record. -/
def State.status (s : State) : RunState × Option FaultRecord := (s.run, s.fault)

/-! ### Construction -/

/-- Construction (R300 to R303) from the open parameters and the program bytes; a program longer than
3584 bytes is `ProgramTooLarge` and no machine exists (R301, R265). -/
def State.construct (p : Params) (program : List Byte) : Except FatalKind State :=
  if programFits program then
    .ok { State.reset with params := p, mem := Memory.writeBytes p.font 0x200 program [] }
  else .error .programTooLarge

/-- The state with the word `w` stored where the next fetch reads it and the engine ready to fetch it: the
bytes at `pc` and `pc + 1` where they lie in memory, the run state `Running`, no fault record, and the
engine the next agent to move (log 10). -/
def State.placeWord (w : Word) (s : State) : State :=
  { s with
    mem :=
      if s.pc.toNat + 1 > 0xFFF then s.mem
      else Memory.writeBytes s.params.font s.pc.toNat [highByte w, lowByte w] s.mem
    run := .running
    fault := none
    schedule := [] }

end Sys2Proof.Machine
end

