-- ==== Sys2Proof/Machine/Flags.lean ====
section
/-! DEFINITION. The ALU of 42_alu.md R181 with its flags, the write pair R182 and the index sum of
43_index_memory.md R221. Each result is computed exactly and then narrowed (R9, R180). -/

namespace Sys2Proof.Machine

/-- A flag as the byte VF receives: 1 or 0 (R33). -/
def flagByte (f : Bool) : Byte := if f then 1 else 0

/-- add: the sum modulo 256 and the carry, "1 if a + b > 255 else 0" (R181). -/
def aluAdd (a b : Byte) : Byte × Bool := (BitVec.ofNat 8 (a.toNat + b.toNat), decide (a.toNat + b.toNat > 255))

/-- sub: the difference modulo 256 and "1 if a >= b else 0", no borrow (R181). sub-reverse is the same
with the operands swapped. -/
def aluSub (a b : Byte) : Byte × Bool :=
  (BitVec.ofInt 8 ((a.toNat : Int) - (b.toNat : Int)), decide (a.toNat ≥ b.toNat))

/-- shift-right: `a >> 1` and the bit shifted out of bit 0 (R181). -/
def aluShiftRight (a : Byte) : Byte × Bool := (BitVec.ofNat 8 (a.toNat / 2), decide (a.toNat % 2 = 1))

/-- shift-left: `(a << 1) mod 256` and the bit shifted out of bit 7 (R181). -/
def aluShiftLeft (a : Byte) : Byte × Bool := (BitVec.ofNat 8 (a.toNat * 2), decide (a.toNat / 128 % 2 = 1))

/-- `WriteFlagged(d, res, flag)` (R182): the order of the two writes is `flag_write_order`. -/
def State.writeFlagged (d : Nibble) (r : Byte × Bool) (s : State) : State :=
  match s.params.flagWriteOrder with
  | .resultLast => (s.setReg 0xF (flagByte r.2)).setReg d r.1
  | .flagLast => (s.setReg d r.1).setReg 0xF (flagByte r.2)

/-- The exact sum of `add-to-index`, 0 to 0x100FE (R221). -/
def indexSum (i : Word) (vx : Byte) : Nat := i.toNat + vx.toNat

/-- The index-overflow flag, "1 if sum > 0x0FFF else 0" (R221). -/
def indexOverflow (i : Word) (vx : Byte) : Bool := decide (indexSum i vx > 0x0FFF)

end Sys2Proof.Machine
end

