-- ==== Sys2Proof/Machine/Alu.lean ====
section
/-! DEFINITION. Register and ALU instructions of 42_alu.md. None of them faults (R180). -/

namespace Sys2Proof.Machine

/-- `6xnn` load-imm (R183). -/
def execLoadImm (x : Nibble) (nn : Byte) (s : State) : Result := .next (s.setReg x nn)

/-- `7xnn` add-imm (R184): modulo 256, no flag. -/
def execAddImm (x : Nibble) (nn : Byte) (s : State) : Result := .next (s.setReg x (aluAdd (s.reg x) nn).1)

/-- `8xy0` copy (R185). -/
def execCopy (x y : Nibble) (s : State) : Result := .next (s.setReg x (s.reg y))

/-- `8xy1` or (R186): no flag. -/
def execOr (x y : Nibble) (s : State) : Result := .next (s.setReg x (s.reg x ||| s.reg y))

/-- `8xy2` and (R187): no flag. -/
def execAnd (x y : Nibble) (s : State) : Result := .next (s.setReg x (s.reg x &&& s.reg y))

/-- `8xy3` xor (R188): no flag. -/
def execXor (x y : Nibble) (s : State) : Result := .next (s.setReg x (s.reg x ^^^ s.reg y))

/-- `8xy4` add (R189): VF = carry. -/
def execAdd (x y : Nibble) (s : State) : Result := .next (s.writeFlagged x (aluAdd (s.reg x) (s.reg y)))

/-- `8xy5` sub (R190): VF = no borrow. -/
def execSub (x y : Nibble) (s : State) : Result := .next (s.writeFlagged x (aluSub (s.reg x) (s.reg y)))

/-- `8xy6` shift-right (R191): Vy is not read. -/
def execShiftRight (x _y : Nibble) (s : State) : Result := .next (s.writeFlagged x (aluShiftRight (s.reg x)))

/-- The destination of `8xy7`, the parameter `sub_reverse_dest` (R192, D10). -/
def subReverseDestOf (p : Params) (x y : Nibble) : Nibble :=
  match p.subReverseDest with
  | .vy => y
  | .vx => x

/-- `8xy7` sub-reverse (R192): Vy − Vx, VF = no borrow. -/
def execSubReverse (x y : Nibble) (s : State) : Result :=
  .next (s.writeFlagged (subReverseDestOf s.params x y) (aluSub (s.reg y) (s.reg x)))

/-- `8xyE` shift-left (R193): Vy is not read. -/
def execShiftLeft (x _y : Nibble) (s : State) : Result := .next (s.writeFlagged x (aluShiftLeft (s.reg x)))

/-- `Cxnn` random (R194): one draw, taken also when `nn` = 0. -/
def execRandom (x : Nibble) (nn : Byte) (s : State) : Result :=
  .next (s.drawRand.2.setReg x (s.drawRand.1 &&& nn))

end Sys2Proof.Machine
end

