-- ==== Sys2Proof/Machine/Operands.lean ====
section
/-! DEFINITION. The operand forms: zero-extended immediates (30_encoding.md R104), the one addressing
mode "memory starting at `I`" (43_index_memory.md) and the bounds check of a data access (20_memory.md
R75). -/

namespace Sys2Proof.Machine

/-- `zext_16(nnn)` (R11, R104). -/
def zext16 (nnn : Addr12) : Word := nnn.setWidth 16

/-- The effective address of the `k`-th byte of a data access, `I + k`, with no wrap (R75). -/
def State.dataAddr (s : State) (k : Nat) : Nat := s.I.toNat + k

/-- `CheckData(a, k)` (R75): `none` when the access is in bounds, else the first byte outside memory,
`max(a, 0x1000)`. -/
def checkData (a : Word) (k : Nat) : Option Word :=
  if 1 ≤ k ∧ a.toNat + k - 1 > 0xFFF then some (if a.toNat < 0x1000 then 0x1000 else a) else none

/-- How many registers `Fx55` and `Fx65` move: `x + 1` (R223, R224). -/
def regCount (x : Nibble) : Nat := x.toNat + 1

/-- The three digits of `bcd`, hundreds first (R222). -/
def bcdDigits (b : Byte) : List Byte :=
  [BitVec.ofNat 8 (b.toNat / 100), BitVec.ofNat 8 (b.toNat / 10 % 10), BitVec.ofNat 8 (b.toNat % 10)]

/-- The anchor column of `draw-sprite`, `Vx mod 64` (R131). -/
def anchorColumn (vx : Byte) : Nat := vx.toNat % 64

/-- The anchor row of `draw-sprite`, `Vy mod 32` (R131). -/
def anchorRow (vy : Byte) : Nat := vy.toNat % 32

/-- The target of `jump-offset`, `zext_16(nnn) + V0` (R158). -/
def offsetTarget (nnn : Addr12) (v0 : Byte) : Word := zext16 nnn + v0.setWidth 16

end Sys2Proof.Machine
end

