-- ==== Sys2Proof/Machine/Control.lean ====
section
/-! DEFINITION. Control transfer of 41_control_flow.md. `pc` already holds the instruction's address plus
2 (30_encoding.md R101). No target is checked (R159). -/

namespace Sys2Proof.Machine

/-- `00EE` return (R151): pop; fatal on an empty stack. -/
def execRet (s : State) : Result :=
  match s.stack with
  | [] => .next (s.fatalIn .ret .stackUnderflow none)
  | a :: rest => .next { s with pc := a, stack := rest }

/-- `1nnn` jump (R152). -/
def execJump (nnn : Addr12) (s : State) : Result := .next { s with pc := zext16 nnn }

/-- `2nnn` call (R153): push the return address; fatal on a full stack. -/
def execCall (nnn : Addr12) (s : State) : Result :=
  if s.stackFull then .next (s.fatalIn (.call nnn) .stackOverflow none)
  else .next { s with pc := zext16 nnn, stack := s.pc :: s.stack }

/-- `3xnn` skip-eq-imm (R154). -/
def execSkipEqImm (x : Nibble) (nn : Byte) (s : State) : Result := .next (s.skipIf (s.reg x == nn))

/-- `4xnn` skip-ne-imm (R155). -/
def execSkipNeImm (x : Nibble) (nn : Byte) (s : State) : Result := .next (s.skipIf (s.reg x != nn))

/-- `5xy0` skip-eq-reg (R156). -/
def execSkipEqReg (x y : Nibble) (s : State) : Result := .next (s.skipIf (s.reg x == s.reg y))

/-- `9xy0` skip-ne-reg (R157). -/
def execSkipNeReg (x y : Nibble) (s : State) : Result := .next (s.skipIf (s.reg x != s.reg y))

/-- `Bnnn` jump-offset (R158): the register is always V0. -/
def execJumpOffset (nnn : Addr12) (s : State) : Result := .next { s with pc := offsetTarget nnn (s.reg 0x0) }

end Sys2Proof.Machine
end

