-- ==== Sys2Proof/Machine/Display.lean ====
section
/-! DEFINITION. The display instructions of 40_display.md. -/

namespace Sys2Proof.Machine

/-- `00E0` clear (R130): the frame buffer all false, one push. -/
def execClear (s : State) : Result := .next { s with fb := FrameBuffer.blank }.pushFrame

/-- `Dxyn` draw-sprite (R131): the anchor and the base are read before any write, the bounds are checked
before VF or any pixel is written, all `n` bytes are read (D14), and one frame is pushed. -/
def execDrawSprite (x y n : Nibble) (s : State) : Result :=
  match checkData s.I n.toNat with
  | some a => .next (s.fatalIn (.drawSprite x y n) .dataOutOfBounds (some a))
  | none =>
    let p := drawRows (anchorColumn (s.reg x)) (anchorRow (s.reg y)) (s.readBytes (s.dataAddr 0) n.toNat) (s.fb, false)
    .next (State.setReg 0xF (flagByte p.2) { s with fb := p.1 }).pushFrame

end Sys2Proof.Machine
end

