-- ==== Sys2Proof/Machine/IndexMemory.lean ====
section
/-! DEFINITION. Index register and memory instructions of 43_index_memory.md. A data access out of bounds
is fatal before anything is written (20_memory.md R75). -/

namespace Sys2Proof.Machine

/-- `Annn` load-index (R220). -/
def execLoadIndex (nnn : Addr12) (s : State) : Result := .next { s with I := zext16 nnn }

/-- `Fx1E` add-to-index (R221): 16-bit wrap (D12); VF only under `index_overflow_vf` (D11). -/
def execAddToIndex (x : Nibble) (s : State) : Result :=
  let t := { s with I := BitVec.ofNat 16 (indexSum s.I (s.reg x)) }
  .next (if s.params.indexOverflowVf then t.setReg 0xF (flagByte (indexOverflow s.I (s.reg x))) else t)

/-- `Fx33` bcd (R222). -/
def execBcd (x : Nibble) (s : State) : Result :=
  match checkData s.I 3 with
  | some a => .next (s.fatalIn (.bcd x) .dataOutOfBounds (some a))
  | none => .next (s.writeBytes (s.dataAddr 0) (bcdDigits (s.reg x)))

/-- `Fx55` store-regs (R223): `I` is unchanged (D15). -/
def execStoreRegs (x : Nibble) (s : State) : Result :=
  match checkData s.I (regCount x) with
  | some a => .next (s.fatalIn (.storeRegs x) .dataOutOfBounds (some a))
  | none => .next (s.writeBytes (s.dataAddr 0) (s.firstRegs (regCount x)))

/-- `Fx65` load-regs (R224): `I` is unchanged (D15). -/
def execLoadRegs (x : Nibble) (s : State) : Result :=
  match checkData s.I (regCount x) with
  | some a => .next (s.fatalIn (.loadRegs x) .dataOutOfBounds (some a))
  | none => .next (s.loadRegsFrom (s.dataAddr 0) (regCount x))

end Sys2Proof.Machine
end

