-- ==== Sys2Proof/Machine/TimersKeys.lean ====
section
/-! DEFINITION. Timer and key instructions of 44_timers_keys.md, and the completion of a key wait. -/

namespace Sys2Proof.Machine

/-- `Fx07` read-delay (R240). -/
def execReadDelay (x : Nibble) (s : State) : Result := .next (s.setReg x s.DT)

/-- `Fx0A` block-for-key, first step (R243): the engine waits; no register changes. -/
def execBlockForKey (x : Nibble) (s : State) : Result := .next { s with run := .waitKey x }

/-- `Fx15` set-delay (R241). -/
def execSetDelay (x : Nibble) (s : State) : Result := .next { s with DT := s.reg x }

/-- `Fx18` set-sound (R242). -/
def execSetSound (x : Nibble) (s : State) : Result := .next { s with ST := s.reg x }

/-- `Fx0A` block-for-key, completion (R244): the engine's only step in `WaitKey(x)` takes the Key Source's
next event. -/
def completeKeyWait (x : Nibble) (s : State) : Result :=
  match s.keys with
  | [] => .fault .waitingForKey
  | .key k :: ks => .next (State.setReg x (k.setWidth 8) { s with run := .running, keys := ks })
  | .closed :: ks => .next (State.fatalIn (.blockForKey x) .keySourceClosed none { s with keys := ks })

end Sys2Proof.Machine
end

