-- ==== Sys2Proof/Machine/Engine.lean ====
section
/-! DEFINITION. The steps of the agents (10_state.md R51): the engine's step (30_encoding.md R115), the
ticker's and the host's, and which of them moves next (log 4). -/

namespace Sys2Proof.Machine

/-- Fetch, decode, execute (R115), the checks in the order of R266: fetch bound, decode, the instruction's
own. `pc` stays at `a` for `FetchOutOfBounds` and is `a + 2` for `InvalidOpcode` (R263). -/
def fetchExecute (s : State) : Result :=
  match s.fetch with
  | none => .next (s.fatal { kind := .fetchOutOfBounds, addr := s.pc, word := none, dataAddr := none })
  | some (w, t) =>
    match decodeWord w with
    | none => .next (t.fatal { kind := .invalidOpcode, addr := s.pc, word := some w, dataAddr := none })
    | some i => exec i t

/-- The engine's step. It has none when `Stopped` or when the fault record is set (R115, R42), and none in
`WaitKey` without a key event (R277). -/
def engineStep (s : State) : Result :=
  if s.fault.isSome then .fault .runEnded
  else
    match s.run with
    | .stoppedInitial => .fault .notStarted
    | .stoppedFinal => .fault .runEnded
    | .waitKey x => completeKeyWait x s
    | .running => fetchExecute s

/-- One move of one agent (R51). -/
def takeTurn (t : Turn) (s : State) : Result :=
  match t with
  | .engine => engineStep s
  | .tick => .next s.tick
  | .start => .next s.start
  | .halt => .next s.halt
  | .key e => .next (s.offerKey e)

/-- The next move of the machine: the first of the schedule, or the engine's when the schedule is empty. -/
def nextMove (s : State) : Result :=
  match s.schedule with
  | [] => engineStep s
  | t :: ts => takeTurn t { s with schedule := ts }

end Sys2Proof.Machine
end

