-- ==== Sys2Proof/Machine/Step.lean ====
section
/-! DEFINITION. One step of the machine, and the placing of a word where the next step fetches it. -/

namespace Sys2Proof.Machine

/-- One step: one move of one agent (10_state.md R51; `nextMove`). -/
def step (s : State) : Host.Outcome State Fault Refusal := Sys2Proof.Machine.nextMove s

/-- `s` with the table's word `w` stored at `pc` and the engine about to fetch it (`State.placeWord`; log
10). -/
def State.withFetchWord (s : State) (nbits w : Nat) : State := s.placeWord (Sys2Proof.tableWord nbits w)

end Sys2Proof.Machine
end

