-- ==== Sys2Proof/Safety.lean ====
section
/-! DEFINITION. The terms the statements use: the parts of a state and "nothing but these parts changes",
how a run ends (10_state.md R53), the sprite of a draw as a picture, and the invariants of the machine. -/

namespace Sys2Proof.Machine

/-! ### Frames -/

/-- The parts of a state, one register, memory byte or pixel at a time. -/
inductive Part where
  | reg (x : Nibble)
  | index
  | pc
  | stack
  | byte (a : Nat)
  | pixel (c : Fin 64) (r : Fin 32)
  | delay
  | sound
  | run
  | fault
  | params
  | frames
  | keys
  | schedule
  | randDraws
  deriving DecidableEq, Repr

/-- Two states agree on a part; memory is compared by reading one byte (`State.readByte`). -/
def Part.agrees (s t : State) : Part → Prop
  | .reg x => t.reg x = s.reg x
  | .index => t.I = s.I
  | .pc => t.pc = s.pc
  | .stack => t.stack = s.stack
  | .byte a => t.readByte a = s.readByte a
  | .pixel c r => t.pixel c r = s.pixel c r
  | .delay => t.DT = s.DT
  | .sound => t.ST = s.ST
  | .run => t.run = s.run
  | .fault => t.fault = s.fault
  | .params => t.params = s.params
  | .frames => t.frames = s.frames
  | .keys => t.keys = s.keys
  | .schedule => t.schedule = s.schedule
  | .randDraws => t.randDraws = s.randDraws

/-- The frame: `t` agrees with `s` on every part outside `changed`. -/
def onlyChanges (changed : Part → Prop) (s t : State) : Prop := ∀ p, ¬ changed p → Part.agrees s t p

/-- The parts of the `n` bytes from address `a`. -/
def bytesFrom (a n : Nat) (p : Part) : Prop := ∃ k, k < n ∧ p = .byte (a + k)

/-! ### How an instruction or a run ends -/

/-- The fatal error of an instruction in execution (60_exceptions.md R260 to R263): the engine is
`Stopped` and the fault record names the instruction. Claims read nothing else of the state after a fault
(R263). -/
def stopsWith (t : State) (kind : FatalKind) (addr : Word) (word dataAddr : Option Word) : Prop :=
  t.run = .stoppedFinal ∧ t.fault = some { kind := kind, addr := addr, word := word, dataAddr := dataAddr }

/-- The spec's `Stopped` (R42). -/
def isStopped (r : RunState) : Prop := r = .stoppedInitial ∨ r = .stoppedFinal

/-- A run ends well: `Stopped` after having been `Running`, with the fault record empty (R53). -/
abbrev State.endedWell (s : State) : Prop := s.run = .stoppedFinal ∧ s.fault = none

/-- A run ends in a fault (R53). -/
def State.endedInFault (s : State) : Prop := s.run = .stoppedFinal ∧ s.fault.isSome

/-! ### The picture of a sprite -/

/-- Whether the sprite with bytes `bs` anchored at column `x0`, row `y0` has a lit bit at column `c`, row
`r`: byte `r − y0`, bit `7 − (c − x0)` (40_display.md R131). -/
def spriteCovers (x0 y0 : Nat) (bs : List Byte) (c r : Nat) : Bool :=
  decide (x0 ≤ c ∧ c < x0 + 8 ∧ y0 ≤ r) && ((bs[r - y0]?).getD 0).getLsbD (7 - (c - x0))

/-- The lit bits of the sprite `Dxyn` draws in state `s`, before any clipping. -/
def State.sprite (s : State) (x y n : Nibble) (c r : Nat) : Bool :=
  spriteCovers (anchorColumn (s.reg x)) (anchorRow (s.reg y)) (s.readBytes (s.dataAddr 0) n.toNat) c r

/-- One frame more at the Frame Sink, holding `t`'s pixels in row-major order: element `k` is
`fb[k mod 64][k / 64]` (R132). -/
def pushesOnce (s t : State) : Prop :=
  ∃ f : Snapshot, t.frames = s.frames ++ [f] ∧
    ∀ k : Fin 2048, f[k] = t.pixel ⟨k.val % 64, Nat.mod_lt _ (by decide)⟩ ⟨k.val / 64, Nat.div_lt_of_lt_mul k.isLt⟩

/-! ### Flagged results -/

/-- `t` is `s` after a flagged write of the result `res` to `d` (42_alu.md R182): VF holds the flag and
`d` the result; where `d` is VF, `flag_write_order` says which stays; nothing else changes. -/
def writesFlagged (s t : State) (d : Nibble) (res : Nat) (flag : Bool) : Prop :=
  (d ≠ 0xF → (t.reg d).toNat = res ∧ t.reg 0xF = flagByte flag) ∧
  (d = 0xF → s.params.flagWriteOrder = .resultLast → (t.reg 0xF).toNat = res) ∧
  (d = 0xF → s.params.flagWriteOrder = .flagLast → t.reg 0xF = flagByte flag) ∧
  onlyChanges (fun p => p = .reg d ∨ p = .reg 0xF) s t

/-! ### Encodings -/

/-- The word `w` is of format NNN with the given match and mask 0xF000, and holds `nnn` (30_encoding.md R105,
R107). -/
def fitsNNN (mtch w : Word) (nnn : Addr12) : Prop := w &&& 0xF000 = mtch ∧ nnnOf w = nnn

/-- Format XNN, mask 0xF000, with the fields `x` and `nn`. -/
def fitsXNN (mtch w : Word) (x : Nibble) (nn : Byte) : Prop := w &&& 0xF000 = mtch ∧ xOf w = x ∧ nnOf w = nn

/-- Format XYF, mask 0xF00F, with the fields `x` and `y`. -/
def fitsXYF (mtch w : Word) (x y : Nibble) : Prop := w &&& 0xF00F = mtch ∧ xOf w = x ∧ yOf w = y

/-- Format XYN, mask 0xF000, with the fields `x`, `y` and `n`. -/
def fitsXYN (mtch w : Word) (x y n : Nibble) : Prop := w &&& 0xF000 = mtch ∧ xOf w = x ∧ yOf w = y ∧ nOf w = n

/-- Format XF, mask 0xF0FF, with the field `x`. -/
def fitsXF (mtch w : Word) (x : Nibble) : Prop := w &&& 0xF0FF = mtch ∧ xOf w = x

/-! ### The engine about to move -/

/-- The engine is the agent that moves next: nothing is scheduled, or the schedule's head is the engine's
(10_state.md R51; log 4). Its move leaves `s.schedule.tail` scheduled, which is empty when nothing was. -/
abbrev State.engineMovesNext (s : State) : Prop := s.schedule = [] ∨ s.schedule.head? = some .engine

/-- The engine is `Running`, not waiting, with the fault record empty (30_encoding.md R115), and it is the
agent that moves next, in an interleaved run as well. -/
abbrev State.readyToFetch (s : State) : Prop := s.run = .running ∧ s.fault = none ∧ s.engineMovesNext

/-- The word at `pc` (20_memory.md R77). -/
def State.wordAtPc (s : State) : Word := wordOfBytes (s.readByte s.pc.toNat) (s.readByte (s.pc.toNat + 1))

/-! ### Invariants -/

/-- Memory keeps its canonical form. -/
abbrev State.memCanonical (s : State) : Prop := Memory.wf s.params.font s.mem

/-- `pc` is at most 0x10FE and every saved `pc` at most 0x1000, so that no fetch wraps `pc` (10_state.md
R35). -/
abbrev State.pcBounded (s : State) : Prop := s.pc.toNat ≤ 0x10FE ∧ ∀ a ∈ s.stack, a.toNat ≤ 0x1000

/-- The call stack holds at most `STACK_DEPTH` entries (R36). -/
def State.stackWithinDepth (s : State) : Prop := ∀ d, s.params.stackDepth = some d → s.stack.length ≤ d

/-- A set fault record means the engine has stopped (R260). -/
abbrev State.faultMeansStopped (s : State) : Prop := s.fault.isSome → s.run = .stoppedFinal

end Sys2Proof.Machine
end

