-- ==== Sys2Proof/Laws/State.lean ====
section
/-! SUPPORT. What each update of a state does to each field: one lemma per field and update, so that no
later proof unfolds a record update. -/

namespace Sys2Proof.Machine

/-! ### setReg -/

@[simp] theorem State.setReg_V (x : Nibble) (b : Byte) (s : State) : (s.setReg x b).V = s.V.set x.toNat b := rfl
@[simp] theorem State.setReg_I (x : Nibble) (b : Byte) (s : State) : (s.setReg x b).I = s.I := rfl
@[simp] theorem State.setReg_pc (x : Nibble) (b : Byte) (s : State) : (s.setReg x b).pc = s.pc := rfl
@[simp] theorem State.setReg_stack (x : Nibble) (b : Byte) (s : State) : (s.setReg x b).stack = s.stack := rfl
@[simp] theorem State.setReg_mem (x : Nibble) (b : Byte) (s : State) : (s.setReg x b).mem = s.mem := rfl
@[simp] theorem State.setReg_fb (x : Nibble) (b : Byte) (s : State) : (s.setReg x b).fb = s.fb := rfl
@[simp] theorem State.setReg_DT (x : Nibble) (b : Byte) (s : State) : (s.setReg x b).DT = s.DT := rfl
@[simp] theorem State.setReg_ST (x : Nibble) (b : Byte) (s : State) : (s.setReg x b).ST = s.ST := rfl
@[simp] theorem State.setReg_run (x : Nibble) (b : Byte) (s : State) : (s.setReg x b).run = s.run := rfl
@[simp] theorem State.setReg_fault (x : Nibble) (b : Byte) (s : State) : (s.setReg x b).fault = s.fault := rfl
@[simp] theorem State.setReg_params (x : Nibble) (b : Byte) (s : State) : (s.setReg x b).params = s.params := rfl
@[simp] theorem State.setReg_frames (x : Nibble) (b : Byte) (s : State) : (s.setReg x b).frames = s.frames := rfl
@[simp] theorem State.setReg_keys (x : Nibble) (b : Byte) (s : State) : (s.setReg x b).keys = s.keys := rfl
@[simp] theorem State.setReg_schedule (x : Nibble) (b : Byte) (s : State) : (s.setReg x b).schedule = s.schedule := rfl
@[simp] theorem State.setReg_randDraws (x : Nibble) (b : Byte) (s : State) : (s.setReg x b).randDraws = s.randDraws := rfl

/-! ### writeBytes -/

@[simp] theorem State.writeBytes_V (a : Nat) (bs : List Byte) (s : State) : (s.writeBytes a bs).V = s.V := rfl
@[simp] theorem State.writeBytes_I (a : Nat) (bs : List Byte) (s : State) : (s.writeBytes a bs).I = s.I := rfl
@[simp] theorem State.writeBytes_pc (a : Nat) (bs : List Byte) (s : State) : (s.writeBytes a bs).pc = s.pc := rfl
@[simp] theorem State.writeBytes_stack (a : Nat) (bs : List Byte) (s : State) : (s.writeBytes a bs).stack = s.stack := rfl
@[simp] theorem State.writeBytes_mem (a : Nat) (bs : List Byte) (s : State) : (s.writeBytes a bs).mem = Memory.writeBytes s.params.font a bs s.mem := rfl
@[simp] theorem State.writeBytes_fb (a : Nat) (bs : List Byte) (s : State) : (s.writeBytes a bs).fb = s.fb := rfl
@[simp] theorem State.writeBytes_DT (a : Nat) (bs : List Byte) (s : State) : (s.writeBytes a bs).DT = s.DT := rfl
@[simp] theorem State.writeBytes_ST (a : Nat) (bs : List Byte) (s : State) : (s.writeBytes a bs).ST = s.ST := rfl
@[simp] theorem State.writeBytes_run (a : Nat) (bs : List Byte) (s : State) : (s.writeBytes a bs).run = s.run := rfl
@[simp] theorem State.writeBytes_fault (a : Nat) (bs : List Byte) (s : State) : (s.writeBytes a bs).fault = s.fault := rfl
@[simp] theorem State.writeBytes_params (a : Nat) (bs : List Byte) (s : State) : (s.writeBytes a bs).params = s.params := rfl
@[simp] theorem State.writeBytes_frames (a : Nat) (bs : List Byte) (s : State) : (s.writeBytes a bs).frames = s.frames := rfl
@[simp] theorem State.writeBytes_keys (a : Nat) (bs : List Byte) (s : State) : (s.writeBytes a bs).keys = s.keys := rfl
@[simp] theorem State.writeBytes_schedule (a : Nat) (bs : List Byte) (s : State) : (s.writeBytes a bs).schedule = s.schedule := rfl
@[simp] theorem State.writeBytes_randDraws (a : Nat) (bs : List Byte) (s : State) : (s.writeBytes a bs).randDraws = s.randDraws := rfl

/-! ### fatal -/

@[simp] theorem State.fatal_V (r : FaultRecord) (s : State) : (s.fatal r).V = s.V := rfl
@[simp] theorem State.fatal_I (r : FaultRecord) (s : State) : (s.fatal r).I = s.I := rfl
@[simp] theorem State.fatal_pc (r : FaultRecord) (s : State) : (s.fatal r).pc = s.pc := rfl
@[simp] theorem State.fatal_stack (r : FaultRecord) (s : State) : (s.fatal r).stack = s.stack := rfl
@[simp] theorem State.fatal_mem (r : FaultRecord) (s : State) : (s.fatal r).mem = s.mem := rfl
@[simp] theorem State.fatal_fb (r : FaultRecord) (s : State) : (s.fatal r).fb = s.fb := rfl
@[simp] theorem State.fatal_DT (r : FaultRecord) (s : State) : (s.fatal r).DT = s.DT := rfl
@[simp] theorem State.fatal_ST (r : FaultRecord) (s : State) : (s.fatal r).ST = s.ST := rfl
@[simp] theorem State.fatal_run (r : FaultRecord) (s : State) : (s.fatal r).run = .stoppedFinal := rfl
@[simp] theorem State.fatal_fault (r : FaultRecord) (s : State) : (s.fatal r).fault = some r := rfl
@[simp] theorem State.fatal_params (r : FaultRecord) (s : State) : (s.fatal r).params = s.params := rfl
@[simp] theorem State.fatal_frames (r : FaultRecord) (s : State) : (s.fatal r).frames = s.frames := rfl
@[simp] theorem State.fatal_keys (r : FaultRecord) (s : State) : (s.fatal r).keys = s.keys := rfl
@[simp] theorem State.fatal_schedule (r : FaultRecord) (s : State) : (s.fatal r).schedule = s.schedule := rfl
@[simp] theorem State.fatal_randDraws (r : FaultRecord) (s : State) : (s.fatal r).randDraws = s.randDraws := rfl

/-! ### fatalIn -/

@[simp] theorem State.fatalIn_V (i : Instr) (k : FatalKind) (d : Option Word) (s : State) : (s.fatalIn i k d).V = s.V := rfl
@[simp] theorem State.fatalIn_I (i : Instr) (k : FatalKind) (d : Option Word) (s : State) : (s.fatalIn i k d).I = s.I := rfl
@[simp] theorem State.fatalIn_pc (i : Instr) (k : FatalKind) (d : Option Word) (s : State) : (s.fatalIn i k d).pc = s.pc := rfl
@[simp] theorem State.fatalIn_stack (i : Instr) (k : FatalKind) (d : Option Word) (s : State) : (s.fatalIn i k d).stack = s.stack := rfl
@[simp] theorem State.fatalIn_mem (i : Instr) (k : FatalKind) (d : Option Word) (s : State) : (s.fatalIn i k d).mem = s.mem := rfl
@[simp] theorem State.fatalIn_fb (i : Instr) (k : FatalKind) (d : Option Word) (s : State) : (s.fatalIn i k d).fb = s.fb := rfl
@[simp] theorem State.fatalIn_DT (i : Instr) (k : FatalKind) (d : Option Word) (s : State) : (s.fatalIn i k d).DT = s.DT := rfl
@[simp] theorem State.fatalIn_ST (i : Instr) (k : FatalKind) (d : Option Word) (s : State) : (s.fatalIn i k d).ST = s.ST := rfl
@[simp] theorem State.fatalIn_run (i : Instr) (k : FatalKind) (d : Option Word) (s : State) : (s.fatalIn i k d).run = .stoppedFinal := rfl
@[simp] theorem State.fatalIn_fault (i : Instr) (k : FatalKind) (d : Option Word) (s : State) : (s.fatalIn i k d).fault = some { kind := k, addr := s.pc - 2, word := some (encode i), dataAddr := d } := rfl
@[simp] theorem State.fatalIn_params (i : Instr) (k : FatalKind) (d : Option Word) (s : State) : (s.fatalIn i k d).params = s.params := rfl
@[simp] theorem State.fatalIn_frames (i : Instr) (k : FatalKind) (d : Option Word) (s : State) : (s.fatalIn i k d).frames = s.frames := rfl
@[simp] theorem State.fatalIn_keys (i : Instr) (k : FatalKind) (d : Option Word) (s : State) : (s.fatalIn i k d).keys = s.keys := rfl
@[simp] theorem State.fatalIn_schedule (i : Instr) (k : FatalKind) (d : Option Word) (s : State) : (s.fatalIn i k d).schedule = s.schedule := rfl
@[simp] theorem State.fatalIn_randDraws (i : Instr) (k : FatalKind) (d : Option Word) (s : State) : (s.fatalIn i k d).randDraws = s.randDraws := rfl

/-! ### pushFrame -/

@[simp] theorem State.pushFrame_V (s : State) : (s.pushFrame).V = s.V := rfl
@[simp] theorem State.pushFrame_I (s : State) : (s.pushFrame).I = s.I := rfl
@[simp] theorem State.pushFrame_pc (s : State) : (s.pushFrame).pc = s.pc := rfl
@[simp] theorem State.pushFrame_stack (s : State) : (s.pushFrame).stack = s.stack := rfl
@[simp] theorem State.pushFrame_mem (s : State) : (s.pushFrame).mem = s.mem := rfl
@[simp] theorem State.pushFrame_fb (s : State) : (s.pushFrame).fb = s.fb := rfl
@[simp] theorem State.pushFrame_DT (s : State) : (s.pushFrame).DT = s.DT := rfl
@[simp] theorem State.pushFrame_ST (s : State) : (s.pushFrame).ST = s.ST := rfl
@[simp] theorem State.pushFrame_run (s : State) : (s.pushFrame).run = s.run := rfl
@[simp] theorem State.pushFrame_fault (s : State) : (s.pushFrame).fault = s.fault := rfl
@[simp] theorem State.pushFrame_params (s : State) : (s.pushFrame).params = s.params := rfl
@[simp] theorem State.pushFrame_frames (s : State) : (s.pushFrame).frames = s.frames ++ [FrameBuffer.snapshot s.fb] := rfl
@[simp] theorem State.pushFrame_keys (s : State) : (s.pushFrame).keys = s.keys := rfl
@[simp] theorem State.pushFrame_schedule (s : State) : (s.pushFrame).schedule = s.schedule := rfl
@[simp] theorem State.pushFrame_randDraws (s : State) : (s.pushFrame).randDraws = s.randDraws := rfl

/-! ### offerKey -/

@[simp] theorem State.offerKey_V (e : KeyEvent) (s : State) : (s.offerKey e).V = s.V := rfl
@[simp] theorem State.offerKey_I (e : KeyEvent) (s : State) : (s.offerKey e).I = s.I := rfl
@[simp] theorem State.offerKey_pc (e : KeyEvent) (s : State) : (s.offerKey e).pc = s.pc := rfl
@[simp] theorem State.offerKey_stack (e : KeyEvent) (s : State) : (s.offerKey e).stack = s.stack := rfl
@[simp] theorem State.offerKey_mem (e : KeyEvent) (s : State) : (s.offerKey e).mem = s.mem := rfl
@[simp] theorem State.offerKey_fb (e : KeyEvent) (s : State) : (s.offerKey e).fb = s.fb := rfl
@[simp] theorem State.offerKey_DT (e : KeyEvent) (s : State) : (s.offerKey e).DT = s.DT := rfl
@[simp] theorem State.offerKey_ST (e : KeyEvent) (s : State) : (s.offerKey e).ST = s.ST := rfl
@[simp] theorem State.offerKey_run (e : KeyEvent) (s : State) : (s.offerKey e).run = s.run := rfl
@[simp] theorem State.offerKey_fault (e : KeyEvent) (s : State) : (s.offerKey e).fault = s.fault := rfl
@[simp] theorem State.offerKey_params (e : KeyEvent) (s : State) : (s.offerKey e).params = s.params := rfl
@[simp] theorem State.offerKey_frames (e : KeyEvent) (s : State) : (s.offerKey e).frames = s.frames := rfl
@[simp] theorem State.offerKey_keys (e : KeyEvent) (s : State) : (s.offerKey e).keys = s.keys ++ [e] := rfl
@[simp] theorem State.offerKey_schedule (e : KeyEvent) (s : State) : (s.offerKey e).schedule = s.schedule := rfl
@[simp] theorem State.offerKey_randDraws (e : KeyEvent) (s : State) : (s.offerKey e).randDraws = s.randDraws := rfl

/-! ### views that depend on one field -/

@[simp] theorem State.reg_pushFrame (s : State) (y : Nibble) : s.pushFrame.reg y = s.reg y := rfl
@[simp] theorem State.reg_writeBytes (a : Nat) (bs : List Byte) (s : State) (y : Nibble) :
    (s.writeBytes a bs).reg y = s.reg y := rfl
@[simp] theorem State.readByte_setReg (x : Nibble) (b : Byte) (s : State) (a : Nat) :
    (s.setReg x b).readByte a = s.readByte a := rfl
@[simp] theorem State.readByte_pushFrame (s : State) (a : Nat) : s.pushFrame.readByte a = s.readByte a := rfl
@[simp] theorem State.pixel_setReg (x : Nibble) (b : Byte) (s : State) (c : Fin 64) (r : Fin 32) :
    (s.setReg x b).pixel c r = s.pixel c r := rfl
@[simp] theorem State.pixel_pushFrame (s : State) (c : Fin 64) (r : Fin 32) : s.pushFrame.pixel c r = s.pixel c r := rfl
@[simp] theorem State.pixel_writeBytes (a : Nat) (bs : List Byte) (s : State) (c : Fin 64) (r : Fin 32) :
    (s.writeBytes a bs).pixel c r = s.pixel c r := rfl

/-- A register after a register write (R10). -/
theorem State.reg_setReg (x : Nibble) (b : Byte) (s : State) (y : Nibble) :
    (s.setReg x b).reg y = if y = x then b else s.reg y := by
  simp only [State.reg, State.setReg, Vector.getElem_set, BitVec.toNat_inj]
  by_cases h : x = y <;> simp [h, eq_comm]

@[simp] theorem State.reg_setReg_self (x : Nibble) (b : Byte) (s : State) : (s.setReg x b).reg x = b := by
  simp [State.reg_setReg]

theorem State.reg_setReg_of_ne (x : Nibble) (b : Byte) (s : State) (y : Nibble) (h : y ≠ x) :
    (s.setReg x b).reg y = s.reg y := by
  simp [State.reg_setReg, h]

end Sys2Proof.Machine
end

