-- ==== Sys2Proof/Laws/Frames.lean ====
section
/-! SUPPORT. What each shared operation leaves unchanged, once per operation (`onlyChanges`). -/

namespace Sys2Proof.Machine

theorem onlyChanges.refl (P : Part → Prop) (s : State) : onlyChanges P s s := by
  intro p _; cases p <;> rfl

theorem onlyChanges.mono {P Q : Part → Prop} {s t : State} (h : onlyChanges P s t) (hPQ : ∀ p, P p → Q p) :
    onlyChanges Q s t := fun p hp => h p fun hP => hp (hPQ p hP)

theorem onlyChanges.trans {P : Part → Prop} {s t u : State} (h₁ : onlyChanges P s t) (h₂ : onlyChanges P t u) :
    onlyChanges P s u := by
  intro p hp
  have e₁ := h₁ p hp
  have e₂ := h₂ p hp
  cases p <;> exact Eq.trans e₂ e₁

theorem State.setReg_onlyChanges (x : Nibble) (b : Byte) (s : State) : onlyChanges (· = .reg x) s (s.setReg x b) := by
  intro p hp
  cases p with
  | reg y => exact State.reg_setReg_of_ne x b s y fun h => hp (h ▸ rfl)
  | _ => rfl

theorem State.writeFlagged_onlyChanges (d : Nibble) (r : Byte × Bool) (s : State) :
    onlyChanges (fun p => p = .reg d ∨ p = .reg 0xF) s (s.writeFlagged d r) := by
  have hd : ∀ b t, onlyChanges (fun p => p = .reg d ∨ p = .reg 0xF) t (State.setReg d b t) :=
    fun b t => (State.setReg_onlyChanges d b t).mono fun _ => Or.inl
  have hF : ∀ b t, onlyChanges (fun p => p = .reg d ∨ p = .reg 0xF) t (State.setReg 0xF b t) :=
    fun b t => (State.setReg_onlyChanges 0xF b t).mono fun _ => Or.inr
  unfold State.writeFlagged
  split
  · exact (hF _ _).trans (hd _ _)
  · exact (hd _ _).trans (hF _ _)

theorem State.skipIf_onlyChanges (c : Bool) (s : State) : onlyChanges (· = .pc) s (s.skipIf c) := by
  intro p hp
  unfold State.skipIf
  split <;> cases p <;> first | rfl | exact absurd rfl hp

@[simp] theorem State.skipIf_mem (c : Bool) (s : State) : (s.skipIf c).mem = s.mem := by
  unfold State.skipIf; split <;> rfl
@[simp] theorem State.skipIf_params (c : Bool) (s : State) : (s.skipIf c).params = s.params := by
  unfold State.skipIf; split <;> rfl
@[simp] theorem State.skipIf_stack (c : Bool) (s : State) : (s.skipIf c).stack = s.stack := by
  unfold State.skipIf; split <;> rfl
@[simp] theorem State.skipIf_pc (c : Bool) (s : State) : (s.skipIf c).pc = if c then s.pc + 2 else s.pc := by
  unfold State.skipIf; split <;> rfl

theorem State.pushFrame_onlyChanges (s : State) : onlyChanges (· = .frames) s s.pushFrame := by
  intro p hp; cases p <;> first | rfl | exact absurd rfl hp

theorem State.loadRegsFrom_onlyChanges (a n : Nat) (s : State) :
    onlyChanges (fun p => ∃ k, k < n ∧ p = .reg (BitVec.ofNat 4 k)) s (s.loadRegsFrom a n) := by
  induction n with
  | zero => exact onlyChanges.refl _ s
  | succ n ih =>
    refine (ih.mono fun p ⟨k, hk, hp⟩ => ⟨k, by omega, hp⟩).trans ?_
    exact (State.setReg_onlyChanges _ _ _).mono fun p hp => ⟨n, by omega, hp⟩

theorem State.tick_onlyChanges (s : State) : onlyChanges (fun p => p = .delay ∨ p = .sound) s s.tick := by
  intro p hp
  unfold State.tick
  split <;> cases p <;> first | rfl | exact absurd (by simp) hp

theorem State.start_onlyChanges (s : State) : onlyChanges (· = .run) s s.start := by
  intro p hp
  unfold State.start
  split <;> cases p <;> first | rfl | exact absurd rfl hp

theorem State.halt_onlyChanges (s : State) : onlyChanges (· = .run) s s.halt := by
  intro p hp
  unfold State.halt
  split <;> cases p <;> first | rfl | exact absurd rfl hp

theorem State.offerKey_onlyChanges (e : KeyEvent) (s : State) : onlyChanges (· = .keys) s (s.offerKey e) := by
  intro p hp; cases p <;> first | rfl | exact absurd rfl hp

end Sys2Proof.Machine
end

