-- ==== Sys2Proof/Laws/Memory.lean ====
section
/-! SUPPORT. Memory: a read after a write, the canonical form, and the data accesses built on them. -/

namespace Sys2Proof.Machine

variable {font : Vector Byte 80} {m : Memory} {a a' : Nat} {b : Byte}

theorem Memory.read_of_notMem (h : ∀ c ∈ m, c.1 ≠ a) : Memory.read font a m = Memory.unlisted font a := by
  induction m with
  | nil => rfl
  | cons c m ih =>
    have hc : c.1 ≠ a := h c (by simp)
    simp only [Memory.read, if_neg hc]
    exact ih fun d hd => h d (by simp [hd])

theorem Memory.read_consCell_self (h : ∀ c ∈ m, c.1 ≠ a) : Memory.read font a (Memory.consCell font a b m) = b := by
  unfold Memory.consCell
  split
  · next hb => rw [Memory.read_of_notMem h, hb]
  · simp [Memory.read]

theorem Memory.read_consCell_other (h : a' ≠ a) :
    Memory.read font a' (Memory.consCell font a b m) = Memory.read font a' m := by
  unfold Memory.consCell
  split
  · rfl
  · simp [Memory.read, Ne.symm h]

/-- A write leaves every other address alone. -/
theorem Memory.read_write_other (h : a' ≠ a) : Memory.read font a' (Memory.write font a b m) = Memory.read font a' m := by
  induction m with
  | nil => exact Memory.read_consCell_other h
  | cons c m ih =>
    simp only [Memory.write]
    split
    · exact Memory.read_consCell_other h
    · split
      · next hac => rw [Memory.read_consCell_other h, Memory.read, if_neg (by omega)]
      · simp only [Memory.read, ih]

/-- A read gives the value last written there. -/
theorem Memory.read_write_self (hm : m.Pairwise (fun c d => c.1 < d.1)) :
    Memory.read font a (Memory.write font a b m) = b := by
  induction m with
  | nil => exact Memory.read_consCell_self (by simp)
  | cons c m ih =>
    rw [List.pairwise_cons] at hm
    simp only [Memory.write]
    split
    · next hac =>
      refine Memory.read_consCell_self fun d hd => ?_
      rcases List.mem_cons.1 hd with rfl | hd
      · omega
      · have := hm.1 d hd; omega
    · split
      · next hac => exact Memory.read_consCell_self fun d hd => by have := hm.1 d hd; omega
      · next hac => rw [Memory.read, if_neg (Ne.symm hac), ih hm.2]

theorem Memory.mem_write {c : Host.Cell} (h : c ∈ Memory.write font a b m) :
    c ∈ m ∨ (c = (a, b) ∧ b ≠ Memory.unlisted font a) := by
  induction m with
  | nil =>
    simp only [Memory.write, Memory.consCell] at h
    split at h <;> simp_all
  | cons d m ih =>
    simp only [Memory.write, Memory.consCell] at h
    split at h
    · split at h
      · exact .inl h
      · rcases List.mem_cons.1 h with rfl | h
        · exact .inr ⟨rfl, by assumption⟩
        · exact .inl h
    · split at h
      · split at h
        · exact .inl (List.mem_cons_of_mem _ h)
        · rcases List.mem_cons.1 h with rfl | h
          · exact .inr ⟨rfl, by assumption⟩
          · exact .inl (List.mem_cons_of_mem _ h)
      · rcases List.mem_cons.1 h with rfl | h
        · exact .inl (List.mem_cons_self ..)
        · exact (ih h).imp_left (List.mem_cons_of_mem _)

theorem Memory.consCell_sorted (hm : m.Pairwise (fun c d => c.1 < d.1)) (ha : ∀ c ∈ m, a < c.1) :
    (Memory.consCell font a b m).Pairwise (fun c d => c.1 < d.1) := by
  unfold Memory.consCell
  split
  · exact hm
  · exact List.pairwise_cons.2 ⟨fun c hc => ha c hc, hm⟩

theorem Memory.write_sorted (hm : m.Pairwise (fun c d => c.1 < d.1)) :
    (Memory.write font a b m).Pairwise (fun c d => c.1 < d.1) := by
  induction m with
  | nil => exact Memory.consCell_sorted hm (by simp)
  | cons c m ih =>
    have hc := List.pairwise_cons.1 hm
    simp only [Memory.write]
    split
    · next hac =>
      refine Memory.consCell_sorted hm fun d hd => ?_
      rcases List.mem_cons.1 hd with rfl | hd
      · exact hac
      · have := hc.1 d hd; omega
    · split
      · next hac => exact Memory.consCell_sorted hc.2 fun d hd => by have := hc.1 d hd; omega
      · refine List.pairwise_cons.2 ⟨fun d hd => ?_, ih hc.2⟩
        rcases Memory.mem_write hd with hd | ⟨rfl, -⟩
        · exact hc.1 d hd
        · simp only; omega

/-- A write inside memory keeps the canonical form. -/
theorem Memory.write_wf (hm : Memory.wf font m) (ha : a < 0x1000) : Memory.wf font (Memory.write font a b m) := by
  refine ⟨Memory.write_sorted hm.1, fun c hc => ?_⟩
  rcases Memory.mem_write hc with hc | ⟨rfl, hb⟩
  · exact hm.2 c hc
  · exact ⟨ha, hb⟩

/-- Writes at ascending addresses inside memory keep the canonical form. -/
theorem Memory.writeBytes_wf {bs : List Byte} (hm : Memory.wf font m) (ha : a + bs.length ≤ 0x1000) :
    Memory.wf font (Memory.writeBytes font a bs m) := by
  induction bs generalizing a m with
  | nil => exact hm
  | cons b bs ih =>
    simp only [List.length_cons] at ha
    exact ih (Memory.write_wf hm (by omega)) (by omega)

/-- Writes at ascending addresses leave every address outside them alone. -/
theorem Memory.read_writeBytes_outside {bs : List Byte} (h : a' < a ∨ a + bs.length ≤ a') :
    Memory.read font a' (Memory.writeBytes font a bs m) = Memory.read font a' m := by
  induction bs generalizing a m with
  | nil => rfl
  | cons b bs ih =>
    simp only [List.length_cons] at h
    rw [Memory.writeBytes, ih (by omega), Memory.read_write_other (by omega)]

/-- Writes at ascending addresses leave the `k`-th byte at the `k`-th address. -/
theorem Memory.read_writeBytes_inside {bs : List Byte} (hm : m.Pairwise (fun c d => c.1 < d.1)) (k : Nat)
    (hk : k < bs.length) : Memory.read font (a + k) (Memory.writeBytes font a bs m) = bs[k] := by
  induction bs generalizing a m k with
  | nil => simp at hk
  | cons b bs ih =>
    rw [Memory.writeBytes]
    cases k with
    | zero => rw [Memory.read_writeBytes_outside (by omega)]; exact Memory.read_write_self hm
    | succ k =>
      have := ih (a := a + 1) (Memory.write_sorted (a := a) (b := b) (font := font) hm) k (by simpa using hk)
      rw [show a + (k + 1) = a + 1 + k by omega, this]; rfl

/-- A store changes only the bytes it stores to. -/
theorem State.writeBytes_onlyChanges (a : Nat) (bs : List Byte) (s : State) :
    onlyChanges (bytesFrom a bs.length) s (s.writeBytes a bs) := by
  intro p hp
  cases p with
  | byte a' =>
    refine Memory.read_writeBytes_outside ?_
    by_contra h
    exact hp ⟨a' - a, by omega, by rw [show a + (a' - a) = a' by omega]⟩
  | _ => rfl

@[simp] theorem State.length_readBytes (s : State) (a n : Nat) : (s.readBytes a n).length = n := by
  simp [State.readBytes]

@[simp] theorem State.length_firstRegs (s : State) (n : Nat) : (s.firstRegs n).length = n := by
  simp [State.firstRegs]

@[simp] theorem State.getElem_readBytes (s : State) (a n k : Nat) (h : k < (s.readBytes a n).length) :
    (s.readBytes a n)[k] = s.readByte (a + k) := by
  simp [State.readBytes]

@[simp] theorem State.getElem_firstRegs (s : State) (n k : Nat) (h : k < (s.firstRegs n).length) :
    (s.firstRegs n)[k] = s.reg (BitVec.ofNat 4 k) := by
  simp [State.firstRegs]

@[simp] theorem length_bcdDigits (b : Byte) : (bcdDigits b).length = 3 := rfl

@[simp] theorem State.loadRegsFrom_mem (a n : Nat) (s : State) : (s.loadRegsFrom a n).mem = s.mem := by
  induction n with
  | zero => rfl
  | succ n ih => exact ih

@[simp] theorem State.loadRegsFrom_params (a n : Nat) (s : State) : (s.loadRegsFrom a n).params = s.params := by
  induction n with
  | zero => rfl
  | succ n ih => exact ih

@[simp] theorem State.readByte_loadRegsFrom (a n : Nat) (s : State) (a' : Nat) :
    (s.loadRegsFrom a n).readByte a' = s.readByte a' := by
  simp [State.readByte]

/-- `Fx65` loads the registers below `n` and leaves the others. -/
theorem State.reg_loadRegsFrom (a n : Nat) (hn : n ≤ 16) (s : State) (r : Nibble) :
    (s.loadRegsFrom a n).reg r = if r.toNat < n then s.readByte (a + r.toNat) else s.reg r := by
  induction n with
  | zero => rfl
  | succ n ih =>
    simp only [State.loadRegsFrom, State.reg_setReg, State.readByte_loadRegsFrom, ih (by omega)]
    have hr : r = BitVec.ofNat 4 n ↔ r.toNat = n := by
      rw [← BitVec.toNat_inj, BitVec.toNat_ofNat, Nat.mod_eq_of_lt (by omega)]
    by_cases h : r = BitVec.ofNat 4 n
    · rw [if_pos h, if_pos (by rw [hr] at h; omega), hr.1 h]
    · rw [if_neg h]
      rw [hr] at h
      by_cases h' : r.toNat < n
      · rw [if_pos h', if_pos (by omega)]
      · rw [if_neg h', if_neg (by omega)]

/-- The bounds check says exactly whether the access lies in memory (R75). -/
theorem checkData_eq_none_iff (w : Word) (k : Nat) : checkData w k = none ↔ k = 0 ∨ w.toNat + k ≤ 0x1000 := by
  unfold checkData
  split <;> simp <;> omega

theorem checkData_eq_some (w : Word) (k : Nat) (h : 1 ≤ k) (h' : 0x1000 < w.toNat + k) :
    checkData w k = some (if w.toNat < 0x1000 then 0x1000 else w) := by
  unfold checkData
  rw [if_pos (by omega)]

end Sys2Proof.Machine
end

