-- ==== Sys2Proof/Laws/Display.lean ====
section
/-! SUPPORT. Drawing: the loops of `Dxyn` XOR exactly the sprite's lit bits inside the grid and report
whether one of them met a lit pixel (40_display.md R131). -/

namespace Sys2Proof.Machine

@[simp] theorem FrameBuffer.pixel_blank (c : Fin 64) (r : Fin 32) : FrameBuffer.pixel FrameBuffer.blank c r = false := by
  simp [FrameBuffer.pixel, FrameBuffer.blank]

theorem FrameBuffer.pixel_setPixel (f : FrameBuffer) (c c' : Fin 64) (r r' : Fin 32) (b : Bool) :
    FrameBuffer.pixel (FrameBuffer.setPixel c r b f) c' r' = if c' = c ∧ r' = r then b else FrameBuffer.pixel f c' r' := by
  simp only [FrameBuffer.pixel, FrameBuffer.setPixel, Fin.getElem_fin, Vector.getElem_set, Fin.ext_iff]
  by_cases hr : r.val = r'.val
  · by_cases hc : c.val = c'.val
    · simp [hr, hc]
    · simp [hr, hc, Ne.symm hc]
  · simp [hr, Ne.symm hr]

/-- Two frame buffers with the same pixels are the same. -/
theorem FrameBuffer.ext_pixel {f g : FrameBuffer} (h : ∀ c r, FrameBuffer.pixel f c r = FrameBuffer.pixel g c r) : f = g := by
  refine Vector.ext fun r hr => Vector.ext fun c hc => ?_
  exact h ⟨c, hc⟩ ⟨r, hr⟩

/-- Element `k` of a snapshot (R132). -/
theorem FrameBuffer.getElem_snapshot (f : FrameBuffer) (k : Nat) (h : k < 2048) :
    (FrameBuffer.snapshot f)[k] = FrameBuffer.pixel f ⟨k % 64, by omega⟩ ⟨k / 64, by omega⟩ := by
  simp [FrameBuffer.snapshot, FrameBuffer.pixel]

/-- `q` is `p` with the picture `cov` XORed in, and `q`'s flag is set if `p`'s was or if a lit pixel of
`p` lies in the picture. -/
def Draws (cov : Nat → Nat → Bool) (p q : FrameBuffer × Bool) : Prop :=
  (∀ c r, FrameBuffer.pixel q.1 c r = (FrameBuffer.pixel p.1 c r ^^ cov c r)) ∧
  (q.2 = true ↔ p.2 = true ∨ ∃ c : Fin 64, ∃ r : Fin 32, FrameBuffer.pixel p.1 c r = true ∧ cov c r = true)

theorem Draws.nothing (p : FrameBuffer × Bool) : Draws (fun _ _ => false) p p := by
  simp [Draws]

/-- Drawing one picture after another that does not meet it draws their union. -/
theorem Draws.seq {cov₁ cov₂ cov : Nat → Nat → Bool} {p q w : FrameBuffer × Bool} (h₁ : Draws cov₁ p q)
    (h₂ : Draws cov₂ q w) (hd : ∀ c r, cov₁ c r = true → cov₂ c r = false) (hu : ∀ c r, cov c r = (cov₁ c r || cov₂ c r)) :
    Draws cov p w := by
  refine ⟨fun c r => ?_, ?_⟩
  · rw [h₂.1, h₁.1, hu]
    cases e : cov₁ c r with
    | false => simp
    | true => simp [hd c r e]
  · rw [h₂.2, h₁.2, or_assoc]
    refine or_congr Iff.rfl ⟨?_, ?_⟩
    · rintro (⟨c, r, hp, hc⟩ | ⟨c, r, hq, hc⟩)
      · exact ⟨c, r, hp, by simp [hu, hc]⟩
      · refine ⟨c, r, ?_, by simp [hu, hc]⟩
        rw [h₁.1] at hq
        have : cov₁ c r = false := by
          by_contra hne
          have := hd c r (by simpa using hne)
          simp_all
        simpa [this] using hq
    · rintro ⟨c, r, hp, hc⟩
      rw [hu, Bool.or_eq_true] at hc
      by_cases h : cov₁ c r = true
      · exact .inl ⟨c, r, hp, h⟩
      · refine .inr ⟨c, r, ?_, hc.resolve_left h⟩
        rw [h₁.1]
        simp_all

theorem drawPixel_draws (c r : Nat) (bit : Bool) (p : FrameBuffer × Bool) :
    Draws (fun c' r' => decide (c' = c ∧ r' = r) && bit) p (drawPixel c r bit p) := by
  unfold drawPixel
  split
  · next h =>
    refine ⟨fun c' r' => ?_, ?_⟩
    · simp only [FrameBuffer.pixel_setPixel, Fin.ext_iff]
      by_cases hcr : c'.val = c ∧ r'.val = r
      · obtain ⟨rfl, rfl⟩ := hcr
        simp
      · simp [hcr]
    · simp only [Bool.or_eq_true, Bool.and_eq_true, decide_eq_true_eq]
      refine or_congr Iff.rfl ⟨fun hp => ⟨⟨c, h.1⟩, ⟨r, h.2⟩, hp.1, ⟨rfl, rfl⟩, hp.2⟩, ?_⟩
      rintro ⟨c', r', hp, ⟨rfl, rfl⟩, hb⟩
      exact ⟨hp, hb⟩
  · next h =>
    have hno : ∀ (c' : Fin 64) (r' : Fin 32), ¬ (c'.val = c ∧ r'.val = r) := by
      rintro c' r' ⟨rfl, rfl⟩
      exact h ⟨c'.isLt, r'.isLt⟩
    refine ⟨fun c' r' => by simp [hno c' r'], ?_⟩
    constructor
    · exact Or.inl
    · rintro (hp | ⟨c', r', -, hc⟩)
      · exact hp
      · simp [hno c' r'] at hc

theorem drawBits_draws (r : Nat) (bits : List Bool) (c : Nat) (p : FrameBuffer × Bool) :
    Draws (fun c' r' => decide (r' = r ∧ c ≤ c') && (bits[c' - c]?).getD false) p (drawBits r c bits p) := by
  induction bits generalizing c p with
  | nil => simpa [drawBits] using Draws.nothing p
  | cons b bs ih =>
    refine Draws.seq (drawPixel_draws c r b p) (ih (c + 1) (drawPixel c r b p)) ?_ ?_
    · intro c' r' h
      simp only [Bool.and_eq_true, decide_eq_true_eq] at h
      simp [h.1.1]
    · intro c' r'
      by_cases hr : r' = r
      · subst hr
        rcases Nat.lt_trichotomy c' c with h | h | h
        · simp [show ¬ c ≤ c' by omega, show ¬ c + 1 ≤ c' by omega, show c' ≠ c by omega]
        · subst h; simp
        · rw [show c' - c = (c' - (c + 1)) + 1 by omega]
          simp [show c ≤ c' by omega, show c + 1 ≤ c' by omega, show c' ≠ c by omega]
      · simp [hr]

theorem getD_spriteBits (b : Byte) (k : Nat) :
    ((spriteBits b)[k]?).getD false = (decide (k < 8) && b.getLsbD (7 - k)) := by
  by_cases h : k < 8 <;> simp [spriteBits, h]

/-- The rows of a sprite draw its picture. -/
theorem drawRows_draws (x0 : Nat) (bs : List Byte) (y0 : Nat) (p : FrameBuffer × Bool) :
    Draws (spriteCovers x0 y0 bs) p (drawRows x0 y0 bs p) := by
  induction bs generalizing y0 p with
  | nil =>
    have h : spriteCovers x0 y0 [] = fun _ _ => false := by
      funext c r; simp [spriteCovers]
    rw [h]
    exact Draws.nothing p
  | cons b bs ih =>
    refine Draws.seq (drawBits_draws y0 (spriteBits b) x0 p) (ih (y0 + 1) _) ?_ ?_
    · intro c r h
      simp only [Bool.and_eq_true, decide_eq_true_eq] at h
      simp [spriteCovers, h.1.1]
    · intro c r
      rw [getD_spriteBits]
      simp only [spriteCovers]
      rcases Nat.lt_trichotomy r y0 with h | h | h
      · simp [show ¬ y0 ≤ r by omega, show ¬ y0 + 1 ≤ r by omega, show r ≠ y0 by omega]
      · subst h
        by_cases hc : x0 ≤ c
        · by_cases hc' : c < x0 + 8
          · simp [hc, hc', show c - x0 < 8 by omega]
          · simp [hc', show ¬ c - x0 < 8 by omega]
        · simp [hc]
      · rw [show r - y0 = (r - (y0 + 1)) + 1 by omega]
        simp [show y0 ≤ r by omega, show y0 + 1 ≤ r by omega, show r ≠ y0 by omega]

/-- A draw in bounds: the frame buffer and the flag are those of drawing the sprite's picture, VF is written
and one frame pushed (R131). -/
theorem execDrawSprite_inBounds {x y n : Nibble} {s : State} (h : n.toNat = 0 ∨ s.I.toNat + n.toNat ≤ 0x1000) :
    ∃ fb hit, Draws (s.sprite x y n) (s.fb, false) (fb, hit) ∧
      execDrawSprite x y n s = .next (State.setReg 0xF (flagByte hit) { s with fb := fb }).pushFrame := by
  have hc : checkData s.I n.toNat = none := (checkData_eq_none_iff _ _).2 h
  refine ⟨_, _, drawRows_draws _ _ _ _, ?_⟩
  simp only [execDrawSprite, hc]

/-- A push is the frame buffer's snapshot (R132). -/
theorem State.pushFrame_pushesOnce (s : State) : pushesOnce s s.pushFrame :=
  ⟨_, rfl, fun k => FrameBuffer.getElem_snapshot s.fb k.val k.isLt⟩

end Sys2Proof.Machine
end

