-- ==== Sys2Proof/Laws/Encoding.lean ====
section
/-! SUPPORT. The formats of 30_encoding.md R105: each field is read back from where it was put, and a word
is the packing of its fields. -/

namespace Sys2Proof

theorem toNat_append_eq {v w : Nat} (a : BitVec v) (b : BitVec w) : (a ++ b).toNat = a.toNat * 2 ^ w + b.toNat := by
  rw [BitVec.toNat_append, ← Nat.shiftLeft_add_eq_or_of_lt b.isLt, Nat.shiftLeft_eq]

theorem packXYN_toNat (c x y n : Nibble) :
    (packXYN c x y n).toNat = c.toNat * 4096 + x.toNat * 256 + y.toNat * 16 + n.toNat := by
  unfold packXYN
  simp only [toNat_append_eq]
  omega

theorem packXNN_toNat (c x : Nibble) (nn : Byte) :
    (packXNN c x nn).toNat = c.toNat * 4096 + x.toNat * 256 + nn.toNat := by
  unfold packXNN
  simp only [toNat_append_eq]
  omega

theorem packNNN_toNat (c : Nibble) (nnn : Addr12) : (packNNN c nnn).toNat = c.toNat * 4096 + nnn.toNat := by
  unfold packNNN
  rw [toNat_append_eq]; omega

theorem classOf_toNat (w : Word) : (classOf w).toNat = w.toNat / 4096 := by
  have := w.isLt
  rw [classOf, BitVec.extractLsb'_toNat, Nat.shiftRight_eq_div_pow]; omega
theorem xOf_toNat (w : Word) : (xOf w).toNat = w.toNat / 256 % 16 := by
  rw [xOf, BitVec.extractLsb'_toNat, Nat.shiftRight_eq_div_pow]
theorem yOf_toNat (w : Word) : (yOf w).toNat = w.toNat / 16 % 16 := by
  rw [yOf, BitVec.extractLsb'_toNat, Nat.shiftRight_eq_div_pow]
theorem nOf_toNat (w : Word) : (nOf w).toNat = w.toNat % 16 := by
  rw [nOf, BitVec.extractLsb'_toNat, Nat.shiftRight_eq_div_pow]; simp
theorem nnOf_toNat (w : Word) : (nnOf w).toNat = w.toNat % 256 := by
  rw [nnOf, BitVec.extractLsb'_toNat, Nat.shiftRight_eq_div_pow]; simp
theorem nnnOf_toNat (w : Word) : (nnnOf w).toNat = w.toNat % 4096 := by
  rw [nnnOf, BitVec.extractLsb'_toNat, Nat.shiftRight_eq_div_pow]; simp
theorem highByte_toNat (w : Word) : (highByte w).toNat = w.toNat / 256 := by
  have := w.isLt
  rw [highByte, BitVec.extractLsb'_toNat, Nat.shiftRight_eq_div_pow]; omega
theorem lowByte_toNat (w : Word) : (lowByte w).toNat = w.toNat % 256 := by
  rw [lowByte, BitVec.extractLsb'_toNat, Nat.shiftRight_eq_div_pow]; simp

@[simp] theorem classOf_packXYN (c x y n : Nibble) : classOf (packXYN c x y n) = c := by
  apply BitVec.eq_of_toNat_eq; rw [classOf_toNat, packXYN_toNat]; omega
@[simp] theorem xOf_packXYN (c x y n : Nibble) : xOf (packXYN c x y n) = x := by
  apply BitVec.eq_of_toNat_eq; rw [xOf_toNat, packXYN_toNat]; omega
@[simp] theorem yOf_packXYN (c x y n : Nibble) : yOf (packXYN c x y n) = y := by
  apply BitVec.eq_of_toNat_eq; rw [yOf_toNat, packXYN_toNat]; omega
@[simp] theorem nOf_packXYN (c x y n : Nibble) : nOf (packXYN c x y n) = n := by
  apply BitVec.eq_of_toNat_eq; rw [nOf_toNat, packXYN_toNat]; omega
@[simp] theorem classOf_packXNN (c x : Nibble) (nn : Byte) : classOf (packXNN c x nn) = c := by
  apply BitVec.eq_of_toNat_eq; rw [classOf_toNat, packXNN_toNat]; omega
@[simp] theorem xOf_packXNN (c x : Nibble) (nn : Byte) : xOf (packXNN c x nn) = x := by
  apply BitVec.eq_of_toNat_eq; rw [xOf_toNat, packXNN_toNat]; omega
@[simp] theorem nnOf_packXNN (c x : Nibble) (nn : Byte) : nnOf (packXNN c x nn) = nn := by
  apply BitVec.eq_of_toNat_eq; rw [nnOf_toNat, packXNN_toNat]; omega
@[simp] theorem classOf_packNNN (c : Nibble) (nnn : Addr12) : classOf (packNNN c nnn) = c := by
  apply BitVec.eq_of_toNat_eq; rw [classOf_toNat, packNNN_toNat]; omega
@[simp] theorem nnnOf_packNNN (c : Nibble) (nnn : Addr12) : nnnOf (packNNN c nnn) = nnn := by
  apply BitVec.eq_of_toNat_eq; rw [nnnOf_toNat, packNNN_toNat]; omega

@[simp] theorem packXYN_fields (w : Word) : packXYN (classOf w) (xOf w) (yOf w) (nOf w) = w := by
  apply BitVec.eq_of_toNat_eq
  rw [packXYN_toNat, classOf_toNat, xOf_toNat, yOf_toNat, nOf_toNat]; omega
@[simp] theorem packXNN_fields (w : Word) : packXNN (classOf w) (xOf w) (nnOf w) = w := by
  apply BitVec.eq_of_toNat_eq
  rw [packXNN_toNat, classOf_toNat, xOf_toNat, nnOf_toNat]; omega
@[simp] theorem packNNN_fields (w : Word) : packNNN (classOf w) (nnnOf w) = w := by
  apply BitVec.eq_of_toNat_eq
  rw [packNNN_toNat, classOf_toNat, nnnOf_toNat]; omega

/-- The bytes of a word, high byte first, are the word again (20_memory.md R77). -/
@[simp] theorem wordOfBytes_bytes (w : Word) : wordOfBytes (highByte w) (lowByte w) = w := by
  apply BitVec.eq_of_toNat_eq
  rw [wordOfBytes, toNat_append_eq, highByte_toNat, lowByte_toNat]; omega

theorem wordOfBytes_toNat (hi lo : Byte) : (wordOfBytes hi lo).toNat = hi.toNat * 256 + lo.toNat := by
  rw [wordOfBytes, toNat_append_eq]; omega

theorem packXYN_and (c x y n c' x' y' n' : Nibble) :
    packXYN c x y n &&& packXYN c' x' y' n' = packXYN (c &&& c') (x &&& x') (y &&& y') (n &&& n') := by
  have hx := @BitVec.and_append 4 4 c c' x x'
  have hy := @BitVec.and_append 8 4 (c ++ x) (c' ++ x') y y'
  have hn := @BitVec.and_append 12 4 (c ++ x ++ y) (c' ++ x' ++ y') n n'
  rw [hx] at hy
  rw [hy] at hn
  exact hn

theorem packXNN_eq_packXYN (c x : Nibble) (nn : Byte) :
    packXNN c x nn = packXYN c x (nn.extractLsb' 4 4) (nn.extractLsb' 0 4) := by
  apply BitVec.eq_of_toNat_eq
  rw [packXNN_toNat, packXYN_toNat, BitVec.extractLsb'_toNat, BitVec.extractLsb'_toNat, Nat.shiftRight_eq_div_pow,
    Nat.shiftRight_eq_div_pow]
  omega

theorem packNNN_eq_packXYN (c : Nibble) (a : Addr12) :
    packNNN c a = packXYN c (a.extractLsb' 8 4) (a.extractLsb' 4 4) (a.extractLsb' 0 4) := by
  apply BitVec.eq_of_toNat_eq
  rw [packNNN_toNat, packXYN_toNat, BitVec.extractLsb'_toNat, BitVec.extractLsb'_toNat, BitVec.extractLsb'_toNat,
    Nat.shiftRight_eq_div_pow, Nat.shiftRight_eq_div_pow, Nat.shiftRight_eq_div_pow]
  omega

end Sys2Proof
end

