-- ==== Sys2Proof/Laws/Flags.lean ====
section
/-! SUPPORT. The ALU's results as numbers (42_alu.md R181) and the registers after a flagged write (R182). -/

namespace Sys2Proof.Machine

@[simp] theorem aluAdd_toNat (a b : Byte) : (aluAdd a b).1.toNat = (a.toNat + b.toNat) % 256 := by
  simp [aluAdd]

theorem aluAdd_eq (a b : Byte) : (aluAdd a b).1 = a + b := by
  apply BitVec.eq_of_toNat_eq; simp

@[simp] theorem aluSub_toNat (a b : Byte) : (aluSub a b).1.toNat = (256 + a.toNat - b.toNat) % 256 := by
  have := a.isLt
  have := b.isLt
  simp only [aluSub, BitVec.toNat_ofInt]
  omega

theorem aluSub_eq (a b : Byte) : (aluSub a b).1 = a - b := by
  apply BitVec.eq_of_toNat_eq
  have := b.isLt
  rw [aluSub_toNat, BitVec.toNat_sub]
  congr 1
  omega

@[simp] theorem aluShiftRight_toNat (a : Byte) : (aluShiftRight a).1.toNat = a.toNat / 2 := by
  have := a.isLt; simp [aluShiftRight]; omega

@[simp] theorem aluShiftLeft_toNat (a : Byte) : (aluShiftLeft a).1.toNat = a.toNat * 2 % 256 := by
  simp [aluShiftLeft]

/-- Every register after a flagged write: VF holds the flag and the destination the result; where they are
one register, `flag_write_order` says which. -/
theorem State.reg_writeFlagged (d : Nibble) (r : Byte × Bool) (s : State) (y : Nibble) :
    (s.writeFlagged d r).reg y =
      if y = d ∧ (d ≠ 0xF ∨ s.params.flagWriteOrder = .resultLast) then r.1
      else if y = 0xF then flagByte r.2 else s.reg y := by
  unfold State.writeFlagged
  cases h : s.params.flagWriteOrder <;> simp only [State.reg_setReg] <;> by_cases hy : y = d <;>
    by_cases hF : y = 0xF <;> simp_all

@[simp] theorem State.writeFlagged_params (d : Nibble) (r : Byte × Bool) (s : State) :
    (s.writeFlagged d r).params = s.params :=
  State.writeFlagged_onlyChanges d r s .params (by simp)

@[simp] theorem State.writeFlagged_mem (d : Nibble) (r : Byte × Bool) (s : State) : (s.writeFlagged d r).mem = s.mem := by
  unfold State.writeFlagged; split <;> rfl

@[simp] theorem State.writeFlagged_fb (d : Nibble) (r : Byte × Bool) (s : State) : (s.writeFlagged d r).fb = s.fb := by
  unfold State.writeFlagged; split <;> rfl

theorem zext16_toNat (nnn : Addr12) : (zext16 nnn).toNat = nnn.toNat := by
  have := nnn.isLt; simp only [zext16, BitVec.toNat_setWidth]; omega

theorem offsetTarget_toNat (nnn : Addr12) (v : Byte) : (offsetTarget nnn v).toNat = nnn.toNat + v.toNat := by
  have := nnn.isLt
  have := v.isLt
  simp only [offsetTarget, BitVec.toNat_add, zext16_toNat, BitVec.toNat_setWidth]
  omega

end Sys2Proof.Machine
end

