-- ==== Sys2Proof/Laws/Step.lean ====
section
/-! SUPPORT. What a step can do, said once: every instruction answers a next state, and the engine's step
and the machine's step are taken apart into their cases. -/

namespace Sys2Proof.Machine

/-- No instruction stops without a next state: a fatal error is taken, not answered as a fault. -/
theorem exec_next (i : Instr) (s : State) : ∃ t, exec i s = .next t := by
  cases i
  case ret => simp only [exec, execRet]; split <;> exact ⟨_, rfl⟩
  case call nnn => simp only [exec, execCall]; split <;> exact ⟨_, rfl⟩
  case drawSprite x y n => simp only [exec, execDrawSprite]; split <;> exact ⟨_, rfl⟩
  case bcd x => simp only [exec, execBcd]; split <;> exact ⟨_, rfl⟩
  case storeRegs x => simp only [exec, execStoreRegs]; split <;> exact ⟨_, rfl⟩
  case loadRegs x => simp only [exec, execLoadRegs]; split <;> exact ⟨_, rfl⟩
  all_goals exact ⟨_, rfl⟩

/-- The cases of fetch, decode, execute (30_encoding.md R101, R113, R115). -/
theorem fetchExecute_eq (s : State) :
    fetchExecute s =
      if s.pc.toNat + 1 > 0xFFF then
        .next (s.fatal { kind := .fetchOutOfBounds, addr := s.pc, word := none, dataAddr := none })
      else
        match decodeWord s.wordAtPc with
        | none =>
          .next (State.fatal { kind := .invalidOpcode, addr := s.pc, word := some s.wordAtPc, dataAddr := none }
            { s with pc := s.pc + 2 })
        | some i => exec i { s with pc := s.pc + 2 } := by
  unfold fetchExecute State.fetch State.wordAtPc
  by_cases hpc : s.pc.toNat + 1 > 0xFFF
  · simp only [if_pos hpc]
  · cases h : decodeWord (wordOfBytes (s.readByte s.pc.toNat) (s.readByte (s.pc.toNat + 1))) <;>
      simp only [if_neg hpc, h]

/-- What a step of the engine that answers a next state was. -/
theorem engineStep_cases {s t : State} (h : engineStep s = .next t) :
    s.fault = none ∧
      ((∃ x, s.run = .waitKey x ∧ completeKeyWait x s = .next t) ∨ (s.run = .running ∧ fetchExecute s = .next t)) := by
  unfold engineStep at h
  split at h
  · simp at h
  · next hf =>
    refine ⟨by simpa using hf, ?_⟩
    split at h
    · simp at h
    · simp at h
    · next x hx => exact .inl ⟨x, hx, h⟩
    · next hr => exact .inr ⟨hr, h⟩

/-- What the completion of a key wait that answers a next state was (44_timers_keys.md R244). -/
theorem completeKeyWait_cases {x : Nibble} {s t : State} (h : completeKeyWait x s = .next t) :
    (∃ k ks, s.keys = .key k :: ks ∧ t = State.setReg x (k.setWidth 8) { s with run := .running, keys := ks }) ∨
      ∃ ks, s.keys = .closed :: ks ∧ t = State.fatalIn (.blockForKey x) .keySourceClosed none { s with keys := ks } := by
  unfold completeKeyWait at h
  split at h
  · simp at h
  · next k ks hk => exact .inl ⟨k, ks, hk, by simpa using h.symm⟩
  · next ks hk => exact .inr ⟨ks, hk, by simpa using h.symm⟩

/-- What a step of the machine that answers a next state was: the engine's, with nothing scheduled or as
the schedule says, or one of the other agents'. -/
theorem step_cases {s t : State} (h : step s = .next t) :
    (s.schedule = [] ∧ engineStep s = .next t) ∨
      ∃ u ts, s.schedule = u :: ts ∧
        ((u = .engine ∧ engineStep { s with schedule := ts } = .next t) ∨
          (u = .tick ∧ t = State.tick { s with schedule := ts }) ∨
          (u = .start ∧ t = State.start { s with schedule := ts }) ∨
          (u = .halt ∧ t = State.halt { s with schedule := ts }) ∨
          ∃ e, u = .key e ∧ t = State.offerKey e { s with schedule := ts }) := by
  unfold step nextMove at h
  split at h
  · next hs => exact .inl ⟨hs, h⟩
  · next u ts hs =>
    refine .inr ⟨u, ts, hs, ?_⟩
    cases u with
    | engine => exact .inl ⟨rfl, h⟩
    | tick => exact .inr (.inl ⟨rfl, by simpa [takeTurn] using h.symm⟩)
    | start => exact .inr (.inr (.inl ⟨rfl, by simpa [takeTurn] using h.symm⟩))
    | halt => exact .inr (.inr (.inr (.inl ⟨rfl, by simpa [takeTurn] using h.symm⟩)))
    | key e => exact .inr (.inr (.inr (.inr ⟨e, rfl, by simpa [takeTurn] using h.symm⟩)))

/-- With nothing scheduled the machine's step is the engine's. -/
theorem step_of_schedule_nil {s : State} (h : s.schedule = []) : step s = engineStep s := by
  simp [step, nextMove, h]

/-- A scheduled move is that agent's. -/
theorem step_of_schedule_cons {s : State} {u : Turn} {ts : List Turn} (h : s.schedule = u :: ts) :
    step s = takeTurn u { s with schedule := ts } := by
  simp [step, nextMove, h]

/-- When the engine moves next, the machine's step is the engine's, its entry of the schedule consumed. -/
theorem step_of_engineMovesNext {s : State} (h : s.engineMovesNext) :
    step s = engineStep { s with schedule := s.schedule.tail } := by
  rcases h with h | h
  · have hs : s = { s with schedule := s.schedule.tail } := by cases s; cases h; rfl
    rw [← hs, step_of_schedule_nil h]
  · obtain ⟨ts, hs⟩ := List.head?_eq_some_iff.1 h
    rw [step_of_schedule_cons hs, hs, List.tail_cons, takeTurn]

end Sys2Proof.Machine
end

