-- ==== Sys2Proof/Laws/Exec.lean ====
section
/-! SUPPORT. What an instruction can do, said once for all: outside its own parts it changes nothing, unless
it takes a fatal error; and the cases of the engine's step built on that. -/

namespace Sys2Proof.Machine

/-- The parts an instruction may change when it takes no fatal error, from the instruction rules R130 to
R243 (pc: beyond the fetch's advance). -/
def Instr.mayChange : Instr → Part → Prop
  | .clear => fun p => p = .frames ∨ ∃ c r, p = .pixel c r
  | .ret | .call _ => fun p => p = .pc ∨ p = .stack
  | .jump _ | .skipEqImm _ _ | .skipNeImm _ _ | .skipEqReg _ _ | .skipNeReg _ _ | .jumpOffset _ => (· = .pc)
  | .drawSprite _ _ _ => fun p => p = .frames ∨ (∃ x, p = .reg x) ∨ ∃ c r, p = .pixel c r
  | .loadIndex _ => (· = .index)
  | .addToIndex _ => fun p => p = .index ∨ ∃ x, p = .reg x
  | .random _ _ => fun p => p = .randDraws ∨ ∃ x, p = .reg x
  | .blockForKey _ => (· = .run)
  | .setDelay _ => (· = .delay)
  | .setSound _ => (· = .sound)
  | .bcd _ | .storeRegs _ => fun p => ∃ a, p = .byte a
  | .loadImm _ _ | .addImm _ _ | .copy _ _ | .or _ _ | .and _ _ | .xor _ _ | .add _ _ | .sub _ _ | .shiftRight _ _
  | .subReverse _ _ | .shiftLeft _ _ | .readDelay _ | .loadRegs _ => fun p => ∃ x, p = .reg x

theorem State.setReg_changesRegs (x b) (s : State) : onlyChanges (fun p => ∃ x, p = .reg x) s (s.setReg x b) :=
  (State.setReg_onlyChanges x b s).mono fun _ hp => ⟨x, hp⟩
theorem State.writeFlagged_changesRegs (x b) (s : State) : onlyChanges (fun p => ∃ x, p = .reg x) s (s.writeFlagged x b) :=
  (State.writeFlagged_onlyChanges x b s).mono fun p hp => by rcases hp with h | h <;> exact ⟨_, h⟩

/-- What an instruction does: it changes only its parts, or it takes a fatal error. -/
theorem exec_frame (i : Instr) (s t : State) (h : exec i s = .next t) :
    onlyChanges (Instr.mayChange i) s t ∨ ∃ r, t = s.fatal r := by
  cases i
  case clear =>
    left; cases h; intro p hp; cases p <;> first | rfl | (exfalso; apply hp; simp [Instr.mayChange])
  case ret =>
    simp only [exec, execRet] at h; split at h
    · right; cases h; exact ⟨_, rfl⟩
    · left; cases h; intro p hp; cases p <;> first | rfl | (exfalso; apply hp; simp [Instr.mayChange])
  case call =>
    simp only [exec, execCall] at h; split at h
    · right; cases h; exact ⟨_, rfl⟩
    · left; cases h; intro p hp; cases p <;> first | rfl | (exfalso; apply hp; simp [Instr.mayChange])
  case jump => left; cases h; intro p hp; cases p <;> first | rfl | (exfalso; apply hp; simp [Instr.mayChange])
  case jumpOffset => left; cases h; intro p hp; cases p <;> first | rfl | (exfalso; apply hp; simp [Instr.mayChange])
  case loadIndex => left; cases h; intro p hp; cases p <;> first | rfl | (exfalso; apply hp; simp [Instr.mayChange])
  case setDelay => left; cases h; intro p hp; cases p <;> first | rfl | (exfalso; apply hp; simp [Instr.mayChange])
  case setSound => left; cases h; intro p hp; cases p <;> first | rfl | (exfalso; apply hp; simp [Instr.mayChange])
  case blockForKey => left; cases h; intro p hp; cases p <;> first | rfl | (exfalso; apply hp; simp [Instr.mayChange])
  case skipEqImm => left; cases h; exact State.skipIf_onlyChanges _ _
  case skipNeImm => left; cases h; exact State.skipIf_onlyChanges _ _
  case skipEqReg => left; cases h; exact State.skipIf_onlyChanges _ _
  case skipNeReg => left; cases h; exact State.skipIf_onlyChanges _ _
  case random => left; cases h; intro p hp; cases p <;> first | rfl | (exfalso; apply hp; simp [Instr.mayChange])
  case addToIndex =>
    left; simp only [exec, execAddToIndex] at h
    split at h <;> cases h <;> intro p hp <;> cases p <;> first | rfl | (exfalso; apply hp; simp [Instr.mayChange])
  case drawSprite =>
    simp only [exec, execDrawSprite] at h; split at h
    · right; cases h; exact ⟨_, rfl⟩
    · left; cases h; intro p hp; cases p <;> first | rfl | (exfalso; apply hp; simp [Instr.mayChange])
  case bcd =>
    simp only [exec, execBcd] at h; split at h
    · right; cases h; exact ⟨_, rfl⟩
    · left; cases h; exact (State.writeBytes_onlyChanges _ _ _).mono fun p ⟨k, _, h⟩ => ⟨_, h⟩
  case storeRegs =>
    simp only [exec, execStoreRegs] at h; split at h
    · right; cases h; exact ⟨_, rfl⟩
    · left; cases h; exact (State.writeBytes_onlyChanges _ _ _).mono fun p ⟨k, _, h⟩ => ⟨_, h⟩
  case loadRegs =>
    simp only [exec, execLoadRegs] at h; split at h
    · right; cases h; exact ⟨_, rfl⟩
    · left; cases h; exact (State.loadRegsFrom_onlyChanges _ _ _).mono fun p ⟨k, _, h⟩ => ⟨_, h⟩
  all_goals left; cases h; first | exact State.setReg_changesRegs _ _ _ | exact State.writeFlagged_changesRegs _ _ _

theorem exec_frame_of_noFault {i : Instr} {s t : State} (h : exec i s = .next t) (ht : t.fault = none) :
    onlyChanges (Instr.mayChange i) s t := by
  rcases exec_frame i s t h with h | ⟨r, rfl⟩
  · exact h
  · simp at ht

/-- To show something of every step of the engine: show it of an instruction run in bounds, of a fatal error
taken from a running or waiting state, and of a key delivered. -/
theorem engineStep_induct {P : State → State → Prop}
    (hx : ∀ (s t : State) i, s.fault = none → s.run = .running → s.pc.toNat + 1 ≤ 0xFFF →
      exec i { s with pc := s.pc + 2 } = .next t → P s t)
    (hf : ∀ (s : State) r ks p, s.run.isRunning = true → P s (State.fatal r { s with pc := p, keys := ks }))
    (hk : ∀ (s : State) x b ks, s.fault = none → s.run = .waitKey x →
      P s (State.setReg x b { s with run := .running, keys := ks }))
    (s t : State) (h : engineStep s = .next t) : P s t := by
  obtain ⟨h0, ⟨x, hw, h⟩ | ⟨hr, h⟩⟩ := engineStep_cases h
  · have hrun : s.run.isRunning = true := by rw [hw]; rfl
    rcases completeKeyWait_cases h with ⟨k, ks, -, rfl⟩ | ⟨ks, -, rfl⟩
    · exact hk _ _ _ _ h0 hw
    · exact hf s _ _ s.pc hrun
  · have hrun : s.run.isRunning = true := by rw [hr]; rfl
    rw [fetchExecute_eq] at h
    split at h
    · cases h; exact hf s _ s.keys s.pc hrun
    · split at h
      · cases h; exact hf s _ s.keys _ hrun
      · exact hx _ _ _ h0 hr (by omega) h

end Sys2Proof.Machine
end

