-- ==== Sys2Proof/Laws/PerInstr.lean ====
section
/-! SUPPORT. Statements made per instruction: RowFits, "the instruction's word belongs to its row of the
opcode map" (30_encoding.md R107). -/

namespace Sys2Proof

/-- The masks of the opcode map, nibble by nibble. -/
theorem masks_packed :
    (0xF000 : Word) = packXYN 0xF 0 0 0 ∧ (0xF00F : Word) = packXYN 0xF 0 0 0xF ∧ (0xF0FF : Word) = packXYN 0xF 0 0xF 0xF := by
  decide

theorem nibble_and_ones (x : Nibble) : x &&& 0xF = x := by
  revert x; decide

theorem nibble_and_zero (x : Nibble) : x &&& 0 = 0 := by
  revert x; decide

theorem Instr.row_mem (i : Instr) : i.row ∈ opcodeMap := by
  cases i <;> simp [Instr.row, opcodeMap]

theorem selects_packXYN (c x y n c' x' y' n' : Nibble) (p : Word)
    (h : packXYN (c &&& c') (x &&& x') (y &&& y') (n &&& n') = p) :
    OpcodeRow.selects ⟨p, packXYN c' x' y' n'⟩ (packXYN c x y n) = true := by
  simp [OpcodeRow.selects, packXYN_and, h]

/-- The row of an instruction is in the opcode map and selects its word. -/
def Laws.RowFits.Statement (i : Instr) : Prop := i.row ∈ opcodeMap ∧ i.row.selects (encode i) = true

theorem Laws.RowFits.clear : Laws.RowFits.Statement (.clear) := ⟨Instr.row_mem _, by decide⟩

theorem Laws.RowFits.ret : Laws.RowFits.Statement (.ret) := ⟨Instr.row_mem _, by decide⟩

theorem Laws.RowFits.jump (nnn : Addr12) : Laws.RowFits.Statement (.jump nnn) := by
  refine ⟨Instr.row_mem _, ?_⟩
  simp only [Instr.row, encode, packNNN_eq_packXYN, masks_packed.1]
  exact selects_packXYN _ _ _ _ _ _ _ _ _ (by simp only [nibble_and_ones, nibble_and_zero]; decide)

theorem Laws.RowFits.call (nnn : Addr12) : Laws.RowFits.Statement (.call nnn) := by
  refine ⟨Instr.row_mem _, ?_⟩
  simp only [Instr.row, encode, packNNN_eq_packXYN, masks_packed.1]
  exact selects_packXYN _ _ _ _ _ _ _ _ _ (by simp only [nibble_and_ones, nibble_and_zero]; decide)

theorem Laws.RowFits.skipEqImm (x : Nibble) (nn : Byte) : Laws.RowFits.Statement (.skipEqImm x nn) := by
  refine ⟨Instr.row_mem _, ?_⟩
  simp only [Instr.row, encode, packXNN_eq_packXYN, masks_packed.1]
  exact selects_packXYN _ _ _ _ _ _ _ _ _ (by simp only [nibble_and_ones, nibble_and_zero]; decide)

theorem Laws.RowFits.skipNeImm (x : Nibble) (nn : Byte) : Laws.RowFits.Statement (.skipNeImm x nn) := by
  refine ⟨Instr.row_mem _, ?_⟩
  simp only [Instr.row, encode, packXNN_eq_packXYN, masks_packed.1]
  exact selects_packXYN _ _ _ _ _ _ _ _ _ (by simp only [nibble_and_ones, nibble_and_zero]; decide)

theorem Laws.RowFits.skipEqReg (x y : Nibble) : Laws.RowFits.Statement (.skipEqReg x y) := by
  refine ⟨Instr.row_mem _, ?_⟩
  simp only [Instr.row, encode, masks_packed.2.1]
  exact selects_packXYN _ _ _ _ _ _ _ _ _ (by simp only [nibble_and_ones, nibble_and_zero]; decide)

theorem Laws.RowFits.loadImm (x : Nibble) (nn : Byte) : Laws.RowFits.Statement (.loadImm x nn) := by
  refine ⟨Instr.row_mem _, ?_⟩
  simp only [Instr.row, encode, packXNN_eq_packXYN, masks_packed.1]
  exact selects_packXYN _ _ _ _ _ _ _ _ _ (by simp only [nibble_and_ones, nibble_and_zero]; decide)

theorem Laws.RowFits.addImm (x : Nibble) (nn : Byte) : Laws.RowFits.Statement (.addImm x nn) := by
  refine ⟨Instr.row_mem _, ?_⟩
  simp only [Instr.row, encode, packXNN_eq_packXYN, masks_packed.1]
  exact selects_packXYN _ _ _ _ _ _ _ _ _ (by simp only [nibble_and_ones, nibble_and_zero]; decide)

theorem Laws.RowFits.copy (x y : Nibble) : Laws.RowFits.Statement (.copy x y) := by
  refine ⟨Instr.row_mem _, ?_⟩
  simp only [Instr.row, encode, masks_packed.2.1]
  exact selects_packXYN _ _ _ _ _ _ _ _ _ (by simp only [nibble_and_ones, nibble_and_zero]; decide)

theorem Laws.RowFits.or (x y : Nibble) : Laws.RowFits.Statement (.or x y) := by
  refine ⟨Instr.row_mem _, ?_⟩
  simp only [Instr.row, encode, masks_packed.2.1]
  exact selects_packXYN _ _ _ _ _ _ _ _ _ (by simp only [nibble_and_ones, nibble_and_zero]; decide)

theorem Laws.RowFits.and (x y : Nibble) : Laws.RowFits.Statement (.and x y) := by
  refine ⟨Instr.row_mem _, ?_⟩
  simp only [Instr.row, encode, masks_packed.2.1]
  exact selects_packXYN _ _ _ _ _ _ _ _ _ (by simp only [nibble_and_ones, nibble_and_zero]; decide)

theorem Laws.RowFits.xor (x y : Nibble) : Laws.RowFits.Statement (.xor x y) := by
  refine ⟨Instr.row_mem _, ?_⟩
  simp only [Instr.row, encode, masks_packed.2.1]
  exact selects_packXYN _ _ _ _ _ _ _ _ _ (by simp only [nibble_and_ones, nibble_and_zero]; decide)

theorem Laws.RowFits.add (x y : Nibble) : Laws.RowFits.Statement (.add x y) := by
  refine ⟨Instr.row_mem _, ?_⟩
  simp only [Instr.row, encode, masks_packed.2.1]
  exact selects_packXYN _ _ _ _ _ _ _ _ _ (by simp only [nibble_and_ones, nibble_and_zero]; decide)

theorem Laws.RowFits.sub (x y : Nibble) : Laws.RowFits.Statement (.sub x y) := by
  refine ⟨Instr.row_mem _, ?_⟩
  simp only [Instr.row, encode, masks_packed.2.1]
  exact selects_packXYN _ _ _ _ _ _ _ _ _ (by simp only [nibble_and_ones, nibble_and_zero]; decide)

theorem Laws.RowFits.shiftRight (x y : Nibble) : Laws.RowFits.Statement (.shiftRight x y) := by
  refine ⟨Instr.row_mem _, ?_⟩
  simp only [Instr.row, encode, masks_packed.2.1]
  exact selects_packXYN _ _ _ _ _ _ _ _ _ (by simp only [nibble_and_ones, nibble_and_zero]; decide)

theorem Laws.RowFits.subReverse (x y : Nibble) : Laws.RowFits.Statement (.subReverse x y) := by
  refine ⟨Instr.row_mem _, ?_⟩
  simp only [Instr.row, encode, masks_packed.2.1]
  exact selects_packXYN _ _ _ _ _ _ _ _ _ (by simp only [nibble_and_ones, nibble_and_zero]; decide)

theorem Laws.RowFits.shiftLeft (x y : Nibble) : Laws.RowFits.Statement (.shiftLeft x y) := by
  refine ⟨Instr.row_mem _, ?_⟩
  simp only [Instr.row, encode, masks_packed.2.1]
  exact selects_packXYN _ _ _ _ _ _ _ _ _ (by simp only [nibble_and_ones, nibble_and_zero]; decide)

theorem Laws.RowFits.skipNeReg (x y : Nibble) : Laws.RowFits.Statement (.skipNeReg x y) := by
  refine ⟨Instr.row_mem _, ?_⟩
  simp only [Instr.row, encode, masks_packed.2.1]
  exact selects_packXYN _ _ _ _ _ _ _ _ _ (by simp only [nibble_and_ones, nibble_and_zero]; decide)

theorem Laws.RowFits.loadIndex (nnn : Addr12) : Laws.RowFits.Statement (.loadIndex nnn) := by
  refine ⟨Instr.row_mem _, ?_⟩
  simp only [Instr.row, encode, packNNN_eq_packXYN, masks_packed.1]
  exact selects_packXYN _ _ _ _ _ _ _ _ _ (by simp only [nibble_and_ones, nibble_and_zero]; decide)

theorem Laws.RowFits.jumpOffset (nnn : Addr12) : Laws.RowFits.Statement (.jumpOffset nnn) := by
  refine ⟨Instr.row_mem _, ?_⟩
  simp only [Instr.row, encode, packNNN_eq_packXYN, masks_packed.1]
  exact selects_packXYN _ _ _ _ _ _ _ _ _ (by simp only [nibble_and_ones, nibble_and_zero]; decide)

theorem Laws.RowFits.random (x : Nibble) (nn : Byte) : Laws.RowFits.Statement (.random x nn) := by
  refine ⟨Instr.row_mem _, ?_⟩
  simp only [Instr.row, encode, packXNN_eq_packXYN, masks_packed.1]
  exact selects_packXYN _ _ _ _ _ _ _ _ _ (by simp only [nibble_and_ones, nibble_and_zero]; decide)

theorem Laws.RowFits.drawSprite (x y n : Nibble) : Laws.RowFits.Statement (.drawSprite x y n) := by
  refine ⟨Instr.row_mem _, ?_⟩
  simp only [Instr.row, encode, masks_packed.1]
  exact selects_packXYN _ _ _ _ _ _ _ _ _ (by simp only [nibble_and_ones, nibble_and_zero]; decide)

theorem Laws.RowFits.readDelay (x : Nibble) : Laws.RowFits.Statement (.readDelay x) := by
  refine ⟨Instr.row_mem _, ?_⟩
  simp only [Instr.row, encode, packXNN_eq_packXYN, masks_packed.2.2]
  exact selects_packXYN _ _ _ _ _ _ _ _ _ (by simp only [nibble_and_ones, nibble_and_zero]; decide)

theorem Laws.RowFits.blockForKey (x : Nibble) : Laws.RowFits.Statement (.blockForKey x) := by
  refine ⟨Instr.row_mem _, ?_⟩
  simp only [Instr.row, encode, packXNN_eq_packXYN, masks_packed.2.2]
  exact selects_packXYN _ _ _ _ _ _ _ _ _ (by simp only [nibble_and_ones, nibble_and_zero]; decide)

theorem Laws.RowFits.setDelay (x : Nibble) : Laws.RowFits.Statement (.setDelay x) := by
  refine ⟨Instr.row_mem _, ?_⟩
  simp only [Instr.row, encode, packXNN_eq_packXYN, masks_packed.2.2]
  exact selects_packXYN _ _ _ _ _ _ _ _ _ (by simp only [nibble_and_ones, nibble_and_zero]; decide)

theorem Laws.RowFits.setSound (x : Nibble) : Laws.RowFits.Statement (.setSound x) := by
  refine ⟨Instr.row_mem _, ?_⟩
  simp only [Instr.row, encode, packXNN_eq_packXYN, masks_packed.2.2]
  exact selects_packXYN _ _ _ _ _ _ _ _ _ (by simp only [nibble_and_ones, nibble_and_zero]; decide)

theorem Laws.RowFits.addToIndex (x : Nibble) : Laws.RowFits.Statement (.addToIndex x) := by
  refine ⟨Instr.row_mem _, ?_⟩
  simp only [Instr.row, encode, packXNN_eq_packXYN, masks_packed.2.2]
  exact selects_packXYN _ _ _ _ _ _ _ _ _ (by simp only [nibble_and_ones, nibble_and_zero]; decide)

theorem Laws.RowFits.bcd (x : Nibble) : Laws.RowFits.Statement (.bcd x) := by
  refine ⟨Instr.row_mem _, ?_⟩
  simp only [Instr.row, encode, packXNN_eq_packXYN, masks_packed.2.2]
  exact selects_packXYN _ _ _ _ _ _ _ _ _ (by simp only [nibble_and_ones, nibble_and_zero]; decide)

theorem Laws.RowFits.storeRegs (x : Nibble) : Laws.RowFits.Statement (.storeRegs x) := by
  refine ⟨Instr.row_mem _, ?_⟩
  simp only [Instr.row, encode, packXNN_eq_packXYN, masks_packed.2.2]
  exact selects_packXYN _ _ _ _ _ _ _ _ _ (by simp only [nibble_and_ones, nibble_and_zero]; decide)

theorem Laws.RowFits.loadRegs (x : Nibble) : Laws.RowFits.Statement (.loadRegs x) := by
  refine ⟨Instr.row_mem _, ?_⟩
  simp only [Instr.row, encode, packXNN_eq_packXYN, masks_packed.2.2]
  exact selects_packXYN _ _ _ _ _ _ _ _ _ (by simp only [nibble_and_ones, nibble_and_zero]; decide)

end Sys2Proof
end

