-- ==== Sys2Proof/Certificates/Slice0/Obligations.lean ====
section
/-! DEFINITION. The statements for the provers. Each docstring names the rule or section of spec/ it
formalises. Statements about an instruction speak of `exec` on the state the fetch leaves, in which `pc`
is the instruction's address plus 2 (30_encoding.md R101), so `s.pc - 2` is that address; they hold for
every value of the open parameters. After a fatal error they read the run state and the fault record only
(60_exceptions.md R263). -/

open Sys2Proof Sys2Proof.Machine

/-! ### Encoding -/

/-- For every instruction, with every operand at every value its fields admit, decoding its word gives the
instruction back, and decoding its two bytes, the high byte first, with any bytes behind them, gives the
instruction and leaves exactly those bytes. From the formats and the opcode map of 30_encoding.md. -/
def Obligations.DecodeOfEncodeIsTheInstruction : Prop :=
  ∀ (i : Instr) (rest : List Byte),
    decodeWord (encode i) = some i ∧ decode (encodeBytes i ++ rest) = .ok (i, rest)

/-- Every word that decodes is the encoding of the instruction it decodes to: no bit of a valid word is
dropped. From the formats and the opcode map of 30_encoding.md. -/
def Obligations.EncodeOfDecodeIsTheWord : Prop :=
  ∀ (w : Word) (i : Instr), decodeWord w = some i → encode i = w

/-- R107, for the table of 31 match and mask pairs (`opcodeMap`): a word decodes exactly when it selects a
row, the row of the decoded instruction is in the table and selects the word, and no word selects two rows.
-/
def Obligations.DecodeFollowsTheOpcodeMap : Prop :=
  (∀ w : Word, (decodeWord w).isSome = opcodeMap.any fun r => r.selects w) ∧
  (∀ (w : Word) (i : Instr), decodeWord w = some i → i.row ∈ opcodeMap ∧ i.row.selects w = true) ∧
  opcodeMap.Pairwise fun r r' => ∀ w : Word, r.selects w = true → r'.selects w = false

/-- R109 to R112: a word of class 5 or 9 is an instruction exactly when n is 0; one of class 8 exactly when
n is 0 to 7 or 0xE; none of class 0xE is; one of class 0xF exactly when nn is 0x07, 0x0A, 0x15, 0x18, 0x1E,
0x33, 0x55 or 0x65. -/
def Obligations.SecondaryDispatchAcceptsExactlyTheListedWords : Prop :=
  ∀ w : Word,
    (classOf w = 0x5 ∨ classOf w = 0x9 → ((decodeWord w).isSome = true ↔ nOf w = 0)) ∧
    (classOf w = 0x8 → ((decodeWord w).isSome = true ↔ (nOf w).toNat ∈ [0x0, 0x1, 0x2, 0x3, 0x4, 0x5, 0x6, 0x7, 0xE])) ∧
    (classOf w = 0xE → decodeWord w = none) ∧
    (classOf w = 0xF → ((decodeWord w).isSome = true ↔ (nnOf w).toNat ∈ [0x07, 0x0A, 0x15, 0x18, 0x1E, 0x33, 0x55, 0x65]))

/-- A word of class 0 is an instruction exactly when it is 0x00E0 or 0x00EE. That a nonzero x nibble is not
ignored is the spec's own decision D6: "the spec takes the exact match" (log 16). -/
def Obligations.ClassZeroAcceptsExactlyTwoWords : Prop :=
  ∀ w : Word, classOf w = 0x0 → ((decodeWord w).isSome = true ↔ w = 0x00E0 ∨ w = 0x00EE)

/-- Ten words taken from the spec's rules and examples decode to the instructions they stand for, and five
words it calls invalid (0x01E0, 0x5121, 0x812F, 0xE09E, 0xF029) do not decode. That 0x01E0 is invalid is the
spec's decision D6 (log 16). -/
def Obligations.WordsOfTheSpecDecode : Prop :=
  decodeTableWord 16 0x00E0 = some .clear ∧ decodeTableWord 16 0x00EE = some .ret ∧
  decodeTableWord 16 0x1234 = some (.jump 0x234) ∧ decodeTableWord 16 0x3342 = some (.skipEqImm 3 0x42) ∧
  decodeTableWord 16 0x7102 = some (.addImm 1 0x02) ∧ decodeTableWord 16 0x8AB6 = some (.shiftRight 0xA 0xB) ∧
  decodeTableWord 16 0xA2F0 = some (.loadIndex 0x2F0) ∧ decodeTableWord 16 0xD015 = some (.drawSprite 0 1 5) ∧
  decodeTableWord 16 0xF265 = some (.loadRegs 2) ∧ decodeTableWord 16 0xFF0A = some (.blockForKey 0xF) ∧
  decodeTableWord 16 0x01E0 = none ∧ decodeTableWord 16 0x5121 = none ∧ decodeTableWord 16 0x812F = none ∧
  decodeTableWord 16 0xE09E = none ∧ decodeTableWord 16 0xF029 = none

/-! ### Fetch and the engine's step -/

/-- Wherever both bytes lie in memory, the fetch gives the word whose high byte is the byte at `pc` and
whose low byte is the byte at `pc + 1`. The spec infers the order from the document's end-to-end scenario:
"The instruction word is big-endian" (20_memory.md section 4, log 26). The fetch succeeds at every `pc` with
both bytes in memory (30_encoding.md section 1), at an odd one too by its decision D5 (20_memory.md section
5, log 18). -/
def Obligations.FetchedWordIsBigEndian : Prop :=
  ∀ s : State, s.pc.toNat + 1 ≤ 0xFFF →
    ∃ w t, s.fetch = some (w, t) ∧
      w.toNat = (s.readByte s.pc.toNat).toNat * 256 + (s.readByte (s.pc.toNat + 1)).toNat

/-- When `pc + 1`, computed without wrapping, is at most 0xFFF, the fetch gives the word of the bytes at
`pc` and `pc + 1` and a state that differs only in `pc`, advanced by 2. Otherwise the step of an engine
about to fetch, with nothing scheduled or its own move scheduled next, stops it with `FetchOutOfBounds` at
the address `pc`, and no word is fetched. That an odd `pc` is fetched like an even one is the spec's
decision D5 (log 18), and the order of the two bytes in the word is its inference: "The instruction word is
big-endian" (20_memory.md section 4, log 26). The schedule is the model's (log 4). -/
def Obligations.FetchAdvancesOrStops : Prop :=
  ∀ s : State,
    (s.pc.toNat + 1 ≤ 0xFFF → ∃ t, s.fetch = some (s.wordAtPc, t) ∧ t.pc.toNat = s.pc.toNat + 2 ∧ onlyChanges (· = .pc) s t) ∧
    (0xFFF < s.pc.toNat + 1 → s.readyToFetch → ∃ t, step s = .next t ∧ stopsWith t .fetchOutOfBounds s.pc none none)

/-- When the engine is `Running`, not waiting, with no fault recorded, and the word at `pc`, inside memory,
decodes to `i`, the step is `exec i` on the state with `pc` advanced by 2. This is so when nothing is
scheduled, and when the engine is scheduled to move, that entry of the schedule being consumed. That an odd
`pc` is fetched is the spec's decision D5 (log 18), the order of the word's bytes its inference (log 26),
the schedule the model's (log 4). -/
def Obligations.StepRunsTheDecodedInstruction : Prop :=
  ∀ (s : State) (i : Instr), s.run = .running → s.fault = none → s.pc.toNat + 1 ≤ 0xFFF → decodeWord s.wordAtPc = some i →
    (s.schedule = [] → step s = exec i { s with pc := s.pc + 2 }) ∧
    (∀ ts, s.schedule = .engine :: ts → step s = exec i { s with pc := s.pc + 2, schedule := ts })

/-- An engine about to fetch, with nothing scheduled or its own move scheduled next, whose word at `pc` lies
in memory and decodes to no instruction, stops with `InvalidOpcode`; the record names the address and the
word. The record's form is the spec's decision D3, "a diagnostic identifying the failing opcode/address"; an
odd `pc` is fetched by its decision D5 (log 18), and the order of the word's bytes is its inference (log
26). The schedule is the model's (log 4). -/
def Obligations.InvalidWordStopsTheEngine : Prop :=
  ∀ s : State, s.readyToFetch → s.pc.toNat + 1 ≤ 0xFFF → decodeWord s.wordAtPc = none →
    ∃ t, step s = .next t ∧ stopsWith t .invalidOpcode s.pc (some s.wordAtPc) none

/-- When the engine moves next, with nothing scheduled or its own move scheduled: a `Stopped` engine has no
step, `runEnded` after a run and `notStarted` before one, and an engine waiting for a key while the Key
Source holds no event has none either, `waitingForKey`. The three names are the model's choice (log 9), the
schedule too (log 4); the spec says "the engine has no step in `WaitKey` until the host offers one". -/
def Obligations.EngineWithoutAStepIsStuck : Prop :=
  ∀ s : State, s.engineMovesNext →
    (s.run = .stoppedFinal → step s = .fault .runEnded) ∧
    (s.fault = none → s.run = .stoppedInitial → step s = .fault .notStarted) ∧
    (∀ x, s.fault = none → s.run = .waitKey x → s.keys = [] → step s = .fault .waitingForKey)

/-! ### Display -/

/-- R130: `clear` is the word 0x00E0; it always completes, makes all 2048 pixels false, already clear or
not, pushes exactly one frame holding them, and changes nothing else. -/
def Obligations.ClearBlanksTheFrameAndPushes : Prop :=
  encode .clear = 0x00E0 ∧
  ∀ s : State, ∃ t, exec .clear s = .next t ∧ (∀ c r, t.pixel c r = false) ∧ pushesOnce s t ∧
    onlyChanges (fun p => p = .frames ∨ ∃ c r, p = .pixel c r) s t

/-- In bounds (n = 0, or I + n - 1 at most 0xFFF) `Dxyn` completes: each pixel is XORed with the sprite's
bit there (anchor Vx mod 64 and Vy mod 32, most significant bit first, nothing outside the grid), VF is 1
when a lit pixel met a lit bit and 0 otherwise, one frame is pushed, and nothing else changes. Out of bounds
it stops with `DataOutOfBounds`. The fatal case and its timing are the spec's decisions D13 and D14, the
row-major order of the pushed frame is its decision D18, and that the anchor is read before VF is written
its decision D8 (log 17, log 6, log 19). -/
def Obligations.DrawSpriteXorsAndReportsCollision : Prop :=
  ∀ (x y n : Nibble) (s : State),
    fitsXYN 0xD000 (encode (.drawSprite x y n)) x y n ∧
    (n.toNat = 0 ∨ s.I.toNat + n.toNat - 1 ≤ 0xFFF → ∃ t, exec (.drawSprite x y n) s = .next t ∧
      (∀ c r, t.pixel c r = (s.pixel c r ^^ s.sprite x y n c r)) ∧
      ((∃ c r, s.pixel c r = true ∧ s.sprite x y n c.val r.val = true) → t.reg 0xF = 1) ∧
      ((¬ ∃ c r, s.pixel c r = true ∧ s.sprite x y n c.val r.val = true) → t.reg 0xF = 0) ∧
      pushesOnce s t ∧
      onlyChanges (fun p => p = .frames ∨ p = .reg 0xF ∨ ∃ c r, p = .pixel c r) s t) ∧
    (1 ≤ n.toNat → 0xFFF < s.I.toNat + n.toNat - 1 → ∃ t, exec (.drawSprite x y n) s = .next t ∧
      stopsWith t .dataOutOfBounds (s.pc - 2) (some (encode (.drawSprite x y n))) (some (if s.I.toNat < 0x1000 then 0x1000 else s.I)))

/-- Two executions of `Dxyn` with the same registers, I and memory, in bounds, leave every pixel as it was,
and the second leaves VF = 1 exactly when a lit pixel of the first's result met a lit sprite bit. The anchor
registers are not VF, which the first draw overwrites. From 95_test_vectors.md section 1 (W6). -/
def Obligations.DrawingTwiceRestoresTheFrame : Prop :=
  ∀ (x y n : Nibble) (s : State), x ≠ 0xF → y ≠ 0xF → n.toNat = 0 ∨ s.I.toNat + n.toNat - 1 ≤ 0xFFF →
    ∃ t u, exec (.drawSprite x y n) s = .next t ∧ exec (.drawSprite x y n) t = .next u ∧
      (∀ c r, u.pixel c r = s.pixel c r) ∧
      (u.reg 0xF = 1 ↔ ∃ c r, t.pixel c r = true ∧ s.sprite x y n c.val r.val = true)

/-- Every instruction other than `clear` and `draw-sprite` that ends without a fault leaves every pixel and
the pushed frames as they were: "mutated only by drawing/clear instructions" (10_state.md section 5). The
list of pushed frames is the model's field (log 6). -/
def Obligations.OnlyClearAndDrawTouchTheDisplay : Prop :=
  ∀ (i : Instr) (s t : State), exec i s = .next t → s.fault = none → t.fault = none →
    i ≠ .clear → (∀ x y n, i ≠ .drawSprite x y n) →
    t.frames = s.frames ∧ ∀ c r, t.pixel c r = s.pixel c r

/-! ### Control transfer -/

/-- R151: `return` is the word 0x00EE; with a value on the stack it completes, `pc` becomes the most
recently pushed value, the stack loses it and nothing else changes; on an empty stack it stops with
`StackUnderflow` at its address with its word. -/
def Obligations.ReturnPopsThePc : Prop :=
  encode .ret = 0x00EE ∧
  ∀ s : State,
    (∀ a rest, s.stack = a :: rest → ∃ t, exec .ret s = .next t ∧ t.pc = a ∧ t.stack = rest ∧
      onlyChanges (fun p => p = .pc ∨ p = .stack) s t) ∧
    (s.stack = [] → ∃ t, exec .ret s = .next t ∧ stopsWith t .stackUnderflow (s.pc - 2) (some 0x00EE) none)

/-- R152: `jump nnn` has format NNN with match 0x1000; it always completes, `pc` becomes nnn and nothing
else changes. -/
def Obligations.JumpLoadsThePc : Prop :=
  ∀ (nnn : Addr12) (s : State),
    fitsNNN 0x1000 (encode (.jump nnn)) nnn ∧
    ∃ t, exec (.jump nnn) s = .next t ∧ t.pc.toNat = nnn.toNat ∧ onlyChanges (· = .pc) s t

/-- `call nnn` pushes `pc`, which is its address plus 2, on top of the stack and loads nnn, and nothing else
changes, unless the stack already holds `STACK_DEPTH` entries: then it stops with `StackOverflow`. A bounded
stack is the spec's decision D16: "pushing onto a full stack is fatal" (log 24). -/
def Obligations.CallPushesTheReturnAddress : Prop :=
  ∀ (nnn : Addr12) (s : State),
    fitsNNN 0x2000 (encode (.call nnn)) nnn ∧
    (s.params.stackDepth ≠ some s.stack.length → ∃ t, exec (.call nnn) s = .next t ∧ t.stack = s.pc :: s.stack ∧
      t.pc.toNat = nnn.toNat ∧ onlyChanges (fun p => p = .pc ∨ p = .stack) s t) ∧
    (s.params.stackDepth = some s.stack.length → ∃ t, exec (.call nnn) s = .next t ∧
      stopsWith t .stackOverflow (s.pc - 2) (some (encode (.call nnn))) none)

/-- `call` followed by `return` leaves `pc` at the value it had after the fetch of the call, and the stack
as it was (95_test_vectors.md section 1, W4). The fetch of the return advances `pc` by 2 in between. -/
def Obligations.ReturnAfterCallResumes : Prop :=
  ∀ (nnn : Addr12) (s : State), s.params.stackDepth ≠ some s.stack.length →
    ∃ t u, exec (.call nnn) s = .next t ∧ exec .ret { t with pc := t.pc + 2 } = .next u ∧
      u.pc = s.pc ∧ u.stack = s.stack

/-- R154 and R155: with format XNN and matches 0x3000 and 0x4000, both always complete; `pc` gains 2 when Vx
equals nn (skip-eq-imm) or differs from it (skip-ne-imm), and nothing else changes. -/
def Obligations.ImmediateSkipsAddTwo : Prop :=
  ∀ (x : Nibble) (nn : Byte) (s : State),
    fitsXNN 0x3000 (encode (.skipEqImm x nn)) x nn ∧ fitsXNN 0x4000 (encode (.skipNeImm x nn)) x nn ∧
    (∃ t, exec (.skipEqImm x nn) s = .next t ∧ t.pc = (if s.reg x = nn then s.pc + 2 else s.pc) ∧ onlyChanges (· = .pc) s t) ∧
    (∃ t, exec (.skipNeImm x nn) s = .next t ∧ t.pc = (if s.reg x = nn then s.pc else s.pc + 2) ∧ onlyChanges (· = .pc) s t)

/-- R156 and R157: with format XYF and matches 0x5000 and 0x9000 (any n but 0 is invalid), both always
complete; `pc` gains 2 when Vx equals Vy (skip-eq-reg) or differs from it (skip-ne-reg), and nothing else
changes. x = y is included. -/
def Obligations.RegisterSkipsAddTwo : Prop :=
  ∀ (x y : Nibble) (s : State),
    fitsXYF 0x5000 (encode (.skipEqReg x y)) x y ∧ fitsXYF 0x9000 (encode (.skipNeReg x y)) x y ∧
    (∀ w : Word, (classOf w = 0x5 ∨ classOf w = 0x9) → nOf w ≠ 0 → decodeWord w = none) ∧
    (∃ t, exec (.skipEqReg x y) s = .next t ∧ t.pc = (if s.reg x = s.reg y then s.pc + 2 else s.pc) ∧
      onlyChanges (· = .pc) s t) ∧
    (∃ t, exec (.skipNeReg x y) s = .next t ∧ t.pc = (if s.reg x = s.reg y then s.pc else s.pc + 2) ∧
      onlyChanges (· = .pc) s t)

/-- `jump-offset nnn` has format NNN with match 0xB000; it always completes, `pc` becomes nnn + V0 and
nothing else changes. That the sum is not reduced is the spec's inference from its pseudocode: "the sum is
not reduced modulo 4096" (41_control_flow.md section 2). -/
def Obligations.JumpOffsetAddsVZero : Prop :=
  ∀ (nnn : Addr12) (s : State),
    fitsNNN 0xB000 (encode (.jumpOffset nnn)) nnn ∧
    ∃ t, exec (.jumpOffset nnn) s = .next t ∧ t.pc.toNat = nnn.toNat + (s.reg 0x0).toNat ∧ onlyChanges (· = .pc) s t

/-! ### Registers and ALU -/

/-- R183 and R185: with formats XNN and XYF and matches 0x6000 and 0x8000, both always complete; Vx becomes
nn (load-imm) or Vy (copy) and nothing else changes, VF included unless x is 0xF. -/
def Obligations.LoadImmAndCopyWriteOneRegister : Prop :=
  ∀ (x y : Nibble) (nn : Byte) (s : State),
    fitsXNN 0x6000 (encode (.loadImm x nn)) x nn ∧ fitsXYF 0x8000 (encode (.copy x y)) x y ∧
    (∃ t, exec (.loadImm x nn) s = .next t ∧ t.reg x = nn ∧ onlyChanges (· = .reg x) s t) ∧
    (∃ t, exec (.copy x y) s = .next t ∧ t.reg x = s.reg y ∧ onlyChanges (· = .reg x) s t)

/-- R184: with format XNN and match 0x7000, add-imm always completes; Vx becomes (Vx + nn) mod 256 and
nothing else changes, VF included unless x is 0xF. -/
def Obligations.AddImmWrapsWithoutFlag : Prop :=
  ∀ (x : Nibble) (nn : Byte) (s : State),
    fitsXNN 0x7000 (encode (.addImm x nn)) x nn ∧
    ∃ t, exec (.addImm x nn) s = .next t ∧ (t.reg x).toNat = ((s.reg x).toNat + nn.toNat) % 256 ∧
      onlyChanges (· = .reg x) s t

/-- R186 to R188: with matches 0x8001, 0x8002, 0x8003 and mask 0xF00F, they always complete; Vx becomes the
bitwise or, and, exclusive or of Vx and Vy and nothing else changes, VF included unless x is 0xF. -/
def Obligations.LogicOperationsWriteNoFlag : Prop :=
  ∀ (x y : Nibble) (s : State),
    fitsXYF 0x8001 (encode (.or x y)) x y ∧ fitsXYF 0x8002 (encode (.and x y)) x y ∧ fitsXYF 0x8003 (encode (.xor x y)) x y ∧
    (∃ t, exec (.or x y) s = .next t ∧ t.reg x = s.reg x ||| s.reg y ∧ onlyChanges (· = .reg x) s t) ∧
    (∃ t, exec (.and x y) s = .next t ∧ t.reg x = s.reg x &&& s.reg y ∧ onlyChanges (· = .reg x) s t) ∧
    (∃ t, exec (.xor x y) s = .next t ∧ t.reg x = s.reg x ^^^ s.reg y ∧ onlyChanges (· = .reg x) s t)

/-- A flagged write puts the result in the destination and the flag in VF; where the destination is VF the
result stays under `result_last` and the flag under `flag_last`; nothing else changes; for another
destination both orders give the same state. The parameter is the spec's decision D9: "the later one stays"
(42_alu.md section 1). -/
def Obligations.FlaggedWriteFollowsTheOrder : Prop :=
  ∀ (d : Nibble) (res : Byte) (flag : Bool) (s : State),
    writesFlagged s (s.writeFlagged d (res, flag)) d res.toNat flag ∧
    (d ≠ 0xF → (s.setReg 0xF (flagByte flag)).setReg d res = (s.setReg d res).setReg 0xF (flagByte flag))

/-- With match 0x8004, add always completes with a flagged write to Vx of (Vx + Vy) mod 256 and the flag 1
exactly when the sum exceeds 255; with x = 0xF, VF keeps the sum under `result_last` and the carry under
`flag_last`; nothing else changes. That the operands are read before VF is written is the spec's decision D8
(log 19), and the order of the two writes at a destination of VF its decision D9: "the later one stays"
(42_alu.md section 1). -/
def Obligations.AddWritesSumAndCarry : Prop :=
  ∀ (x y : Nibble) (s : State),
    fitsXYF 0x8004 (encode (.add x y)) x y ∧
    ∃ t, exec (.add x y) s = .next t ∧
      writesFlagged s t x (((s.reg x).toNat + (s.reg y).toNat) % 256) (decide ((s.reg x).toNat + (s.reg y).toNat > 255))

/-- With match 0x8005, sub always completes with a flagged write to Vx of (Vx - Vy) mod 256 and the flag 1
exactly when Vx >= Vy; with x = 0xF, VF keeps the difference under `result_last` and the flag under
`flag_last`; nothing else changes. That the operands are read before VF is written is the spec's decision D8
(log 19), and the order of the two writes at a destination of VF its decision D9: "the later one stays"
(42_alu.md section 1). -/
def Obligations.SubWritesDifferenceAndNoBorrow : Prop :=
  ∀ (x y : Nibble) (s : State),
    fitsXYF 0x8005 (encode (.sub x y)) x y ∧
    ∃ t, exec (.sub x y) s = .next t ∧
      writesFlagged s t x ((256 + (s.reg x).toNat - (s.reg y).toNat) % 256) (decide ((s.reg x).toNat ≥ (s.reg y).toNat))

/-- With matches 0x8006 and 0x800E, both always complete, whatever y is, with a flagged write to Vx: Vx >> 1
with the flag bit 0 of Vx, and (Vx << 1) mod 256 with the flag bit 7 of Vx; with x = 0xF, VF keeps the
result under `result_last` and the flag under `flag_last`; nothing else changes. That the operands are read
before VF is written is the spec's decision D8 (log 19), and the order of the two writes at a destination of
VF its decision D9: "the later one stays" (42_alu.md section 1). -/
def Obligations.ShiftsWriteTheBitShiftedOut : Prop :=
  ∀ (x y : Nibble) (s : State),
    fitsXYF 0x8006 (encode (.shiftRight x y)) x y ∧ fitsXYF 0x800E (encode (.shiftLeft x y)) x y ∧
    (∃ t, exec (.shiftRight x y) s = .next t ∧ writesFlagged s t x ((s.reg x).toNat / 2) ((s.reg x).getLsbD 0)) ∧
    (∃ t, exec (.shiftLeft x y) s = .next t ∧ writesFlagged s t x ((s.reg x).toNat * 2 % 256) ((s.reg x).getLsbD 7))

/-- With match 0x8007, sub-reverse always completes with a flagged write of (Vy - Vx) mod 256 and the flag 1
exactly when Vy >= Vx, to Vy under `sub_reverse_dest = Vy` and to Vx under `sub_reverse_dest = Vx`; nothing
else changes. The parameter is the spec's decision D10: "the destination is selected by the parameter". The
operands are read before VF is written by decision D8 (log 19), and a destination of VF follows decision D9.
-/
def Obligations.SubReverseWritesTheParameterDestination : Prop :=
  ∀ (x y : Nibble) (s : State),
    fitsXYF 0x8007 (encode (.subReverse x y)) x y ∧
    ∃ t, exec (.subReverse x y) s = .next t ∧
      (s.params.subReverseDest = .vy →
        writesFlagged s t y ((256 + (s.reg y).toNat - (s.reg x).toNat) % 256) (decide ((s.reg y).toNat ≥ (s.reg x).toNat))) ∧
      (s.params.subReverseDest = .vx →
        writesFlagged s t x ((256 + (s.reg y).toNat - (s.reg x).toNat) % 256) (decide ((s.reg y).toNat ≥ (s.reg x).toNat)))

/-- With format XNN and match 0xC000, random always completes; Vx becomes the next byte of the random source
AND nn, one byte is drawn, and nothing else changes. The byte is a free value (decision D17, log 3), so this
holds whatever the source gives. -/
def Obligations.RandomMasksOneDraw : Prop :=
  ∀ (x : Nibble) (nn : Byte) (s : State),
    fitsXNN 0xC000 (encode (.random x nn)) x nn ∧
    ∃ t, exec (.random x nn) s = .next t ∧ t.reg x = Config.randByte s.randDraws &&& nn ∧
      t.randDraws = s.randDraws + 1 ∧ onlyChanges (fun p => p = .reg x ∨ p = .randDraws) s t

/-! ### Index register and memory -/

/-- R220: with format NNN and match 0xA000, load-index always completes; I becomes nnn and nothing else
changes. -/
def Obligations.LoadIndexWritesI : Prop :=
  ∀ (nnn : Addr12) (s : State),
    fitsNNN 0xA000 (encode (.loadIndex nnn)) nnn ∧
    ∃ t, exec (.loadIndex nnn) s = .next t ∧ t.I.toNat = nnn.toNat ∧ onlyChanges (· = .index) s t

/-- With format XF and match 0xF01E, add-to-index always completes; I becomes (I + Vx) mod 0x10000; under
`index_overflow_vf` VF becomes 1 when the sum exceeds 0x0FFF and 0 otherwise, and without it VF is not
written; nothing else changes. The parameter and the 16-bit wrap are the spec's decisions D11 and D12: "the
16-bit wrap is the spec's choice" (log 1, log 21). Where x is 0xF and VF is also written, Vx is read first
by decision D8 (log 19). -/
def Obligations.AddToIndexWrapsAtSixteenBits : Prop :=
  ∀ (x : Nibble) (s : State),
    fitsXF 0xF01E (encode (.addToIndex x)) x ∧
    ∃ t, exec (.addToIndex x) s = .next t ∧ t.I.toNat = (s.I.toNat + (s.reg x).toNat) % 0x10000 ∧
      (s.params.indexOverflowVf = true → t.reg 0xF = (if s.I.toNat + (s.reg x).toNat > 0x0FFF then 1 else 0)) ∧
      onlyChanges (fun p => p = .index ∨ (s.params.indexOverflowVf = true ∧ p = .reg 0xF)) s t

/-- With format XF and match 0xF033: when I + 2 is at most 0xFFF, bcd completes, the bytes at I, I+1, I+2
are the hundreds, tens and units digits of Vx, and nothing else changes, every other byte of memory
included. Otherwise it stops with `DataOutOfBounds` (the spec's decision D13, "before any write", log 17).
Memory is in the canonical form (log 12), which StepKeepsMemoryCanonical keeps. -/
def Obligations.BcdStoresThreeDigits : Prop :=
  ∀ (x : Nibble) (s : State), s.memCanonical →
    fitsXF 0xF033 (encode (.bcd x)) x ∧
    (s.I.toNat + 2 ≤ 0xFFF → ∃ t, exec (.bcd x) s = .next t ∧
      (t.readByte (s.dataAddr 0)).toNat = (s.reg x).toNat / 100 ∧
      (t.readByte (s.dataAddr 1)).toNat = (s.reg x).toNat / 10 % 10 ∧
      (t.readByte (s.dataAddr 2)).toNat = (s.reg x).toNat % 10 ∧
      onlyChanges (bytesFrom (s.dataAddr 0) 3) s t) ∧
    (0xFFF < s.I.toNat + 2 → ∃ t, exec (.bcd x) s = .next t ∧
      stopsWith t .dataOutOfBounds (s.pc - 2) (some (encode (.bcd x))) (some (if s.I.toNat < 0x1000 then 0x1000 else s.I)))

/-- With format XF and match 0xF055: when I + x is at most 0xFFF, store-regs completes, the byte at I + k is
Vk for every k from 0 to x, and nothing else changes, I and every other byte of memory included. Otherwise
it stops with `DataOutOfBounds`. I unchanged is the spec's decision D15, the fatal case D13 (log 17, log
20). Memory is in the canonical form (log 12), which StepKeepsMemoryCanonical keeps. -/
def Obligations.StoreRegsStoresTheFirstRegisters : Prop :=
  ∀ (x : Nibble) (s : State), s.memCanonical →
    fitsXF 0xF055 (encode (.storeRegs x)) x ∧
    (s.I.toNat + x.toNat ≤ 0xFFF → ∃ t, exec (.storeRegs x) s = .next t ∧
      (∀ k : Nibble, k.toNat ≤ x.toNat → t.readByte (s.dataAddr k.toNat) = s.reg k) ∧
      onlyChanges (bytesFrom (s.dataAddr 0) (regCount x)) s t) ∧
    (0xFFF < s.I.toNat + x.toNat → ∃ t, exec (.storeRegs x) s = .next t ∧
      stopsWith t .dataOutOfBounds (s.pc - 2) (some (encode (.storeRegs x))) (some (if s.I.toNat < 0x1000 then 0x1000 else s.I)))

/-- With format XF and match 0xF065: when I + x is at most 0xFFF, load-regs completes, Vk is the byte at I +
k for every k from 0 to x, and nothing else changes, I, the registers above Vx and memory included.
Otherwise it stops with `DataOutOfBounds`. I unchanged is the spec's decision D15, the fatal case D13 (log
17, log 20). -/
def Obligations.LoadRegsLoadsTheFirstRegisters : Prop :=
  ∀ (x : Nibble) (s : State),
    fitsXF 0xF065 (encode (.loadRegs x)) x ∧
    (s.I.toNat + x.toNat ≤ 0xFFF → ∃ t, exec (.loadRegs x) s = .next t ∧
      (∀ k : Nibble, k.toNat ≤ x.toNat → t.reg k = s.readByte (s.dataAddr k.toNat)) ∧
      onlyChanges (fun p => ∃ k : Nibble, k.toNat ≤ x.toNat ∧ p = .reg k) s t) ∧
    (0xFFF < s.I.toNat + x.toNat → ∃ t, exec (.loadRegs x) s = .next t ∧
      stopsWith t .dataOutOfBounds (s.pc - 2) (some (encode (.loadRegs x))) (some (if s.I.toNat < 0x1000 then 0x1000 else s.I)))

/-- When store-regs stores Vk and V(k+1) at the address `pc` holds and the one after it, the word at `pc`
afterwards is the word of these two bytes. The spec infers it: "a byte written by `bcd` or `store-regs` is
seen by every later fetch of that address" (20_memory.md section 7); the order of the word's bytes is its
inference too (log 26). -/
def Obligations.StoredBytesAreFetchedNext : Prop :=
  ∀ (x : Nibble) (s : State) (k : Nat), s.memCanonical → s.I.toNat + x.toNat ≤ 0xFFF → k + 1 ≤ x.toNat →
    s.pc.toNat = s.dataAddr k →
    ∃ t, exec (.storeRegs x) s = .next t ∧ t.wordAtPc = wordOfBytes (s.reg (BitVec.ofNat 4 k)) (s.reg (BitVec.ofNat 4 (k + 1)))

/-- Every instruction other than load-index and add-to-index that ends without a fault leaves I as it was:
"It is written only by `load-index` (`Annn`) and `add-to-index` (`Fx1E`)" (10_state.md section 3); that
store-regs and load-regs leave I is the spec's decision D15 (log 20). -/
def Obligations.OnlyIndexInstructionsWriteI : Prop :=
  ∀ (i : Instr) (s t : State), exec i s = .next t → s.fault = none → t.fault = none →
    (∀ nnn, i ≠ .loadIndex nnn) → (∀ x, i ≠ .addToIndex x) → t.I = s.I

/-- Every instruction other than bcd and store-regs that ends without a fault leaves every byte of memory as
it was (20_memory.md sections 2 and 6, 43_index_memory.md). -/
def Obligations.OnlyBcdAndStoreRegsWriteMemory : Prop :=
  ∀ (i : Instr) (s t : State), exec i s = .next t → s.fault = none → t.fault = none →
    (∀ x, i ≠ .bcd x) → (∀ x, i ≠ .storeRegs x) → ∀ a, t.readByte a = s.readByte a

/-- Every instruction other than call and return that ends without a fault leaves the stack as it was: "no
instruction reads or writes it other than `call` (`2nnn`) and `return` (`00EE`)" (10_state.md section 4). -/
def Obligations.OnlyCallAndReturnChangeTheStack : Prop :=
  ∀ (i : Instr) (s t : State), exec i s = .next t → s.fault = none → t.fault = none →
    i ≠ .ret → (∀ nnn, i ≠ .call nnn) → t.stack = s.stack

/-- Every instruction other than set-delay that ends without a fault leaves DT, and every one other than
set-sound leaves ST. No instruction reads ST: run on a state that differs only in ST, the instruction leads
to a state that differs from the first result at most in ST (10_state.md section 6). -/
def Obligations.TimersAreWrittenOnlyByTheirInstructions : Prop :=
  ∀ (i : Instr) (s t : State), exec i s = .next t → s.fault = none → t.fault = none →
    ((∀ x, i ≠ .setDelay x) → t.DT = s.DT) ∧ ((∀ x, i ≠ .setSound x) → t.ST = s.ST) ∧
    ∀ v : Byte, ∃ u, exec i { s with ST := v } = .next u ∧ onlyChanges (· = .sound) t u

/-! ### Timers and keys -/

/-- With format XF and match 0xF007, read-delay always completes; Vx becomes DT and nothing else changes, DT
included: "`Vx ← delay`" (44_timers_keys.md section 1). -/
def Obligations.ReadDelayReadsTheCounter : Prop :=
  ∀ (x : Nibble) (s : State),
    fitsXF 0xF007 (encode (.readDelay x)) x ∧
    ∃ t, exec (.readDelay x) s = .next t ∧ t.reg x = s.DT ∧ onlyChanges (· = .reg x) s t

/-- R241 and R242: with format XF and matches 0xF015 and 0xF018, both always complete; DT (set-delay) or ST
(set-sound) becomes Vx, replacing the counter, and nothing else changes. -/
def Obligations.TimerWritesLoadTheCounters : Prop :=
  ∀ (x : Nibble) (s : State),
    fitsXF 0xF015 (encode (.setDelay x)) x ∧ fitsXF 0xF018 (encode (.setSound x)) x ∧
    (∃ t, exec (.setDelay x) s = .next t ∧ t.DT = s.reg x ∧ onlyChanges (· = .delay) s t) ∧
    (∃ t, exec (.setSound x) s = .next t ∧ t.ST = s.reg x ∧ onlyChanges (· = .sound) s t)

/-- With format XF and match 0xF00A, the first step of block-for-key always completes: the engine waits for
a key for register x, `pc` stays behind the instruction, and nothing but the run state changes: "the step
changes no register" (44_timers_keys.md section 2). -/
def Obligations.BlockForKeyWaits : Prop :=
  ∀ (x : Nibble) (s : State),
    fitsXF 0xF00A (encode (.blockForKey x)) x ∧
    ∃ t, exec (.blockForKey x) s = .next t ∧ t.run = .waitKey x ∧ onlyChanges (· = .run) s t

/-- While the engine waits for register x and moves next, with nothing scheduled or its own move scheduled,
its step takes the next event of the Key Source: a key code goes to Vx and the engine runs on, and nothing
else changes but the queue of events and the schedule, whose entry is consumed; closure stops it with
`KeySourceClosed` at the address of the block-for-key with its word. That the events and the schedule are
lists in the state is the model's choice (log 4, log 5). -/
def Obligations.KeyEventEndsTheWait : Prop :=
  ∀ (x : Nibble) (s : State), s.run = .waitKey x → s.fault = none → s.engineMovesNext →
    (∀ k ks, s.keys = .key k :: ks → ∃ t, step s = .next t ∧ (t.reg x).toNat = k.toNat ∧ t.run = .running ∧ t.keys = ks ∧
      t.schedule = s.schedule.tail ∧
      onlyChanges (fun p => p = .reg x ∨ p = .run ∨ p = .keys ∨ p = .schedule) s t) ∧
    (∀ ks, s.keys = .closed :: ks → ∃ t, step s = .next t ∧
      stopsWith t .keySourceClosed (s.pc - 2) (some ((0xF00A : Word) ||| (x.setWidth 16 <<< 8))) none)

/-- A scheduled tick decrements DT and ST, each floored at 0, while the engine is `Running` or waiting, does
nothing to them otherwise, and changes nothing else but the schedule. Both counters in one step and no tick
outside a run are the spec's decisions D23 and D24: "Ticks occur only while the engine is `Running`" (log
22). The schedule is the model's (log 4). -/
def Obligations.TickDecrementsBothCounters : Prop :=
  ∀ (s : State) (ts : List Turn), s.schedule = .tick :: ts →
    ∃ t, step s = .next t ∧ t.schedule = ts ∧
      (s.run.isRunning = true → t.DT.toNat = s.DT.toNat - 1 ∧ t.ST.toNat = s.ST.toNat - 1) ∧
      (s.run.isRunning = false → t.DT = s.DT ∧ t.ST = s.ST) ∧
      onlyChanges (fun p => p = .schedule ∨ p = .delay ∨ p = .sound) s t

/-- While the engine runs or waits, k scheduled ticks in a row take DT and ST from v to max(0, v - k), never
below zero, and change nothing else but the schedule (95_test_vectors.md section 1, W9, which speaks of the
delay timer). That one tick moves both counters is the spec's decision D23: "Decrementing both counters in
one step is the spec's choice" (60_exceptions.md section 4, log 22). The schedule is the model's (log 4). -/
def Obligations.TicksReachZeroAndStay : Prop :=
  ∀ (k : Nat) (s : State) (ts : List Turn), s.run.isRunning = true → s.schedule = List.replicate k .tick ++ ts →
    ∃ t, Host.Core.run Sys2Proof.core k s = .next t ∧ t.schedule = ts ∧
      t.DT.toNat = s.DT.toNat - k ∧ t.ST.toNat = s.ST.toNat - k ∧
      onlyChanges (fun p => p = .schedule ∨ p = .delay ∨ p = .sound) s t

/-- A scheduled start takes the initial `Stopped` to `Running` and has no effect in any other state; a
scheduled halt takes a `Running` engine, waiting or not, to the final `Stopped` with no fault, and has no
effect otherwise; nothing else but the schedule changes. That is the spec's decisions D20 and D21: "it has
no effect in any other state" (log 23). The schedule and the two `Stopped` are the model's (log 4, log 8).
-/
def Obligations.StartAndHaltMoveTheRunState : Prop :=
  ∀ (s : State) (ts : List Turn),
    (s.schedule = .start :: ts → ∃ t, step s = .next t ∧ t.schedule = ts ∧
      t.run = (if s.run = .stoppedInitial then .running else s.run) ∧
      onlyChanges (fun p => p = .schedule ∨ p = .run) s t) ∧
    (s.schedule = .halt :: ts → ∃ t, step s = .next t ∧ t.schedule = ts ∧
      t.run = (if s.run.isRunning = true then .stoppedFinal else s.run) ∧
      onlyChanges (fun p => p = .schedule ∨ p = .run) s t)

/-! ### Reset -/

/-- For every choice of the open parameters and every program of at most 3584 bytes, construction succeeds:
V0 to VF and I are 0, `pc` is 0x200, the stack is empty, every pixel is false, memory holds the program from
0x200, FONT at 0x050 to 0x09F and 0 elsewhere, DT = ST = 0 (decision D22, log 11), the engine is `Stopped`,
no fault is recorded and no frame was pushed. -/
def Obligations.ConstructionSetsEveryPieceOfState : Prop :=
  ∀ (p : Params) (program : List Byte), program.length ≤ 3584 →
    ∃ s, State.construct p program = .ok s ∧
      (∀ x, s.reg x = 0) ∧ s.I = 0 ∧ s.pc = 0x200 ∧ s.stack = [] ∧ (∀ c r, s.pixel c r = false) ∧
      (∀ a < 0x1000, s.readByte a =
        if 0x200 ≤ a ∧ a < 0x200 + program.length then (program[a - 0x200]?).getD 0
        else if 0x050 ≤ a ∧ a < 0x0A0 then (p.font[a - 0x050]?).getD 0
        else 0) ∧
      s.DT = 0 ∧ s.ST = 0 ∧ s.run = .stoppedInitial ∧ s.fault = none ∧ s.frames = [] ∧ s.params = p

/-- A program longer than 3584 bytes makes construction answer `ProgramTooLarge` and no state. The empty
program is accepted; after a start the first step stops with `InvalidOpcode` at 0x200 with the word 0: the
spec infers "the first fetch then reads the zero word 0x0000, which is `InvalidOpcode`"
(70_reset_and_hazards.md section 1). -/
def Obligations.ConstructionRefusesALongProgram : Prop :=
  (∀ (p : Params) (program : List Byte), 3584 < program.length → State.construct p program = .error .programTooLarge) ∧
  ∀ p : Params, ∃ s t u, State.construct p [] = .ok s ∧ step { s with schedule := [.start] } = .next t ∧
    t.run = .running ∧ step t = .next u ∧ stopsWith u .invalidOpcode 0x200 (some 0) none

/-! ### Invariants and whole-machine rules -/

/-- From every state whose memory is in canonical form (addresses strictly rising, all below 0x1000, no
entry equal to what an unlisted address reads as), every step that answers a next state leaves memory in
that form. The form is the model's own (log 12). -/
def Obligations.StepKeepsMemoryCanonical : Prop :=
  ∀ s t : State, s.memCanonical → step s = .next t → t.memCanonical

/-- From every state in which `pc` is at most 0x10FE and every saved `pc` at most 0x1000, every step that
answers a next state with no fault recorded keeps both bounds: the spec infers "so the 16-bit pc never
wraps" (10_state.md section 3). -/
def Obligations.StepKeepsThePcBounded : Prop :=
  ∀ s t : State, s.pcBounded → step s = .next t → t.fault = none → t.pcBounded

/-- From every state whose stack holds at most `STACK_DEPTH` entries, every step that answers a next state
with no fault recorded keeps it so. The capacity is the spec's decision D16 (10_state.md section 4, log 24).
-/
def Obligations.StepKeepsTheStackWithinDepth : Prop :=
  ∀ s t : State, s.stackWithinDepth → step s = .next t → t.fault = none → t.stackWithinDepth

/-- From every state in which a set fault record implies the final `Stopped`, every step that answers a next
state keeps it so: "A fatal error stops the engine" (60_exceptions.md section 1). -/
def Obligations.StepKeepsFaultMeansStopped : Prop :=
  ∀ s t : State, s.faultMeansStopped → step s = .next t → t.faultMeansStopped

/-- Every step that answers a next state from a state with a fault recorded leaves that record: "once set,
is never cleared" (10_state.md section 7, decision D3). -/
def Obligations.FaultRecordIsNeverCleared : Prop :=
  ∀ (s t : State) (r : FaultRecord), s.fault = some r → step s = .next t → t.fault = some r

/-- At `State.reset` memory is in canonical form, `pc` and the saved ones are bounded, the stack is within
its depth and no fault is recorded without the engine stopped (10_state.md section 8). -/
def Obligations.ResetMeetsTheInvariants : Prop :=
  State.reset.memCanonical ∧ State.reset.pcBounded ∧ State.reset.stackWithinDepth ∧ State.reset.faultMeansStopped

/-- For every step that answers a next state: the initial `Stopped` stays or becomes `Running` by a start; a
running or waiting engine keeps running or waiting, or reaches the final `Stopped` by a halt or with a fault
recorded; the final `Stopped` stays (10_state.md section 7; that a start is accepted once is the spec's
decision D21, log 23; the two `Stopped` are the model's, log 8). -/
def Obligations.RunStateTransitions : Prop :=
  ∀ s t : State, step s = .next t →
    (s.run = .stoppedInitial → t.run = .stoppedInitial ∨ (t.run = .running ∧ ∃ ts, s.schedule = .start :: ts)) ∧
    (s.run.isRunning = true → t.run.isRunning = true ∨
      (t.run = .stoppedFinal ∧ ((∃ ts, s.schedule = .halt :: ts) ∨ t.fault.isSome = true))) ∧
    (s.run = .stoppedFinal → t.run = .stoppedFinal)

/-- From a state whose run ended well, every step that answers a next state changes nothing but the model's
own schedule and queue of key events. That a start after the end has no effect is the spec's decision D21,
"no later `start` is accepted" (10_state.md section 7, log 23), and that a halt then has none either is the
model's reading of "`halt` moves a `Running` engine" (60_exceptions.md section 5, log 4, log 23); that no
tick follows the stop is its decision D24, "None occurs before `start` or after the stop" (60_exceptions.md
section 4, log 22). The schedule, the queue and the final `Stopped` are the model's (log 4, log 5, log 8).
-/
def Obligations.NothingChangesAfterAHalt : Prop :=
  ∀ s t : State, s.endedWell → step s = .next t → onlyChanges (fun p => p = .schedule ∨ p = .keys) s t

/-- Every step that answers a next state leaves the open parameters: they are fixed for the machine
(00_scope.md section 3) and stand in the state by the model's choice (log 1). -/
def Obligations.StepKeepsTheParameters : Prop :=
  ∀ s t : State, step s = .next t → t.params = s.params

/-! ### The host's key move -/

/-- A scheduled key move puts its event, a key code or closure, behind the events the Key Source holds,
consumes its entry of the schedule and changes nothing else, in every run state: "A key pressed before the
`Fx0A` executes may be queued by the host and delivered then" (60_exceptions.md section 5, decision D19).
The queue and the schedule are the model's (log 5, log 4). -/
def Obligations.KeyMoveAppendsTheEvent : Prop :=
  ∀ (s : State) (e : KeyEvent) (ts : List Turn), s.schedule = .key e :: ts →
    ∃ t, step s = .next t ∧ t.keys = s.keys ++ [e] ∧ t.schedule = ts ∧
      onlyChanges (fun p => p = .schedule ∨ p = .keys) s t
end

