-- ==== Sys2Proof/Tests/Slice0.lean ====
section
/-! SUPPORT. The model's own tests: decoding and encoding of words written out bit by bit from 30_encoding.md
R105 and R107, the well-formedness checks refusing what they must, single steps from 95_test_vectors.md (each
test names its vector), and, for every statement with hypotheses, states that meet them at the values where
its clauses meet. -/

namespace Sys2Proof.Machine

/-! ### Words written out bit by bit -/

theorem test_decode_clear : decodeWord 0b0000000011100000 = some .clear ∧ encode .clear = 0x00E0 := by decide
theorem test_decode_ret : decodeWord 0b0000000011101110 = some .ret ∧ encode .ret = 0x00EE := by decide
theorem test_decode_jump : decodeWord 0b0001001000110100 = some (.jump 0x234) ∧ encode (.jump 0x234) = 0x1234 := by decide
theorem test_decode_call : decodeWord 0b0010101010111100 = some (.call 0xABC) ∧ encode (.call 0xABC) = 0x2ABC := by decide
theorem test_decode_skipEqImm : decodeWord 0b0011001101000010 = some (.skipEqImm 3 0x42) ∧ encode (.skipEqImm 3 0x42) = 0x3342 := by decide
theorem test_decode_skipNeImm : decodeWord 0b0100010000101010 = some (.skipNeImm 4 0x2A) ∧ encode (.skipNeImm 4 0x2A) = 0x442A := by decide
theorem test_decode_skipEqReg : decodeWord 0b0101101010110000 = some (.skipEqReg 0xA 0xB) ∧ encode (.skipEqReg 0xA 0xB) = 0x5AB0 := by decide
theorem test_decode_loadImm : decodeWord 0b0110101001011100 = some (.loadImm 0xA 0x5C) ∧ encode (.loadImm 0xA 0x5C) = 0x6A5C := by decide
theorem test_decode_addImm : decodeWord 0b0111000100000010 = some (.addImm 1 0x02) ∧ encode (.addImm 1 0x02) = 0x7102 := by decide
theorem test_decode_copy : decodeWord 0b1000000100100000 = some (.copy 1 2) ∧ encode (.copy 1 2) = 0x8120 := by decide
theorem test_decode_or : decodeWord 0b1000000100100001 = some (.or 1 2) ∧ encode (.or 1 2) = 0x8121 := by decide
theorem test_decode_and : decodeWord 0b1000000100100010 = some (.and 1 2) ∧ encode (.and 1 2) = 0x8122 := by decide
theorem test_decode_xor : decodeWord 0b1000000100100011 = some (.xor 1 2) ∧ encode (.xor 1 2) = 0x8123 := by decide
theorem test_decode_add : decodeWord 0b1000000000010100 = some (.add 0 1) ∧ encode (.add 0 1) = 0x8014 := by decide
theorem test_decode_sub : decodeWord 0b1000000000010101 = some (.sub 0 1) ∧ encode (.sub 0 1) = 0x8015 := by decide
theorem test_decode_shiftRight : decodeWord 0b1000000001110110 = some (.shiftRight 0 7) ∧ encode (.shiftRight 0 7) = 0x8076 := by decide
theorem test_decode_subReverse : decodeWord 0b1000000000010111 = some (.subReverse 0 1) ∧ encode (.subReverse 0 1) = 0x8017 := by decide
theorem test_decode_shiftLeft : decodeWord 0b1000111100011110 = some (.shiftLeft 0xF 1) ∧ encode (.shiftLeft 0xF 1) = 0x8F1E := by decide
theorem test_decode_skipNeReg : decodeWord 0b1001000100100000 = some (.skipNeReg 1 2) ∧ encode (.skipNeReg 1 2) = 0x9120 := by decide
theorem test_decode_loadIndex : decodeWord 0b1010001011110000 = some (.loadIndex 0x2F0) ∧ encode (.loadIndex 0x2F0) = 0xA2F0 := by decide
theorem test_decode_jumpOffset : decodeWord 0b1011001100000000 = some (.jumpOffset 0x300) ∧ encode (.jumpOffset 0x300) = 0xB300 := by decide
theorem test_decode_random : decodeWord 0b1100001111110000 = some (.random 3 0xF0) ∧ encode (.random 3 0xF0) = 0xC3F0 := by decide
theorem test_decode_drawSprite : decodeWord 0b1101000000010101 = some (.drawSprite 0 1 5) ∧ encode (.drawSprite 0 1 5) = 0xD015 := by decide
theorem test_decode_readDelay : decodeWord 0b1111010100000111 = some (.readDelay 5) ∧ encode (.readDelay 5) = 0xF507 := by decide
theorem test_decode_blockForKey : decodeWord 0b1111001100001010 = some (.blockForKey 3) ∧ encode (.blockForKey 3) = 0xF30A := by decide
theorem test_decode_setDelay : decodeWord 0b1111010100010101 = some (.setDelay 5) ∧ encode (.setDelay 5) = 0xF515 := by decide
theorem test_decode_setSound : decodeWord 0b1111001000011000 = some (.setSound 2) ∧ encode (.setSound 2) = 0xF218 := by decide
theorem test_decode_addToIndex : decodeWord 0b1111001100011110 = some (.addToIndex 3) ∧ encode (.addToIndex 3) = 0xF31E := by decide
theorem test_decode_bcd : decodeWord 0b1111000000110011 = some (.bcd 0) ∧ encode (.bcd 0) = 0xF033 := by decide
theorem test_decode_storeRegs : decodeWord 0b1111001001010101 = some (.storeRegs 2) ∧ encode (.storeRegs 2) = 0xF255 := by decide
theorem test_decode_loadRegs : decodeWord 0b1111001001100101 = some (.loadRegs 2) ∧ encode (.loadRegs 2) = 0xF265 := by decide

theorem test_decode_bytes : decode [0xA2, 0xF0, 0x12] = .ok (.loadIndex 0x2F0, [0x12]) := by rfl
theorem test_decode_tooShort : decode [0xA2] = .error .tooShort := by rfl
theorem test_decode_invalid : decode [0xE0, 0x9E] = .error (.invalidOpcode 0xE09E) := by rfl

/-! ### Well-formedness: an ill-formed term for each check -/

/-- 95_test_vectors.md E7 to E12: words no row selects, one or more of each class with invalid words. -/
theorem test_illformed_words :
    ([0x0000, 0x01E0, 0x00EF, 0x0123, 0x5121, 0x512F, 0x8128, 0x812D, 0x812F, 0x9121, 0xE09E, 0xE0A1, 0xEFFF, 0xF029,
      0xF030, 0xF000, 0xF0FF] : List Word).all (fun w => !wordWellFormed w && (decodeWord w).isNone) = true := by decide
/-- E6: words that are instructions. -/
theorem test_wellformed_words :
    ([0x00E0, 0x00EE, 0x9120, 0x5AB0, 0x8AB6, 0xF165, 0xFF0A] : List Word).all
      (fun w => wordWellFormed w && (decodeWord w).isSome) = true := by decide
/-- 00_scope.md R7: `STACK_DEPTH` is at least 1. -/
theorem test_illformed_stackDepth : Params.wellFormed { Params.default with stackDepth := some 0 } = false := by decide
theorem test_wellformed_params : Params.wellFormed Params.default = true := by decide
/-- X3: a program of 3585 bytes does not fit. -/
theorem test_illformed_program : programFits (List.replicate 3585 0) = false := by
  simp only [programFits, maxProgram, List.length_replicate]; decide

/-! ### Small states and what one step leaves -/

/-- The machine after reset and start (95_test_vectors.md, conventions). -/
def started : State := { State.reset with run := .running }

/-- What `f` reads of the next state; none where there is no next state. -/
def Result.view {α : Type} (r : Result) (f : State → α) : Option α :=
  match r with
  | .next t => some (f t)
  | .fault _ => none
  | .refused _ => none

/-- One step of `s` on the word `w` placed at `pc`. -/
def onWord {α : Type} (s : State) (w : Nat) (f : State → α) : Option α := Result.view (step (s.withFetchWord 16 w)) f

/-- The parameters with the alternative value of each choice. -/
def otherParams : Params :=
  { Params.default with subReverseDest := .vx, flagWriteOrder := .flagLast, indexOverflowVf := true, stackDepth := some 1 }

/-! ### Fetch -/

/-- E5: an odd `pc` is fetched normally. -/
theorem test_fetch_odd_pc : onWord { started with pc := 0x201 } 0x60AB (fun t => (t.reg 0, t.pc)) = some (0xAB, 0x203) := by decide
/-- X8: the fetch bound is checked before the decode. -/
theorem test_fetch_bound_first :
    Result.view (step { started with pc := 0xFFF, mem := [(0xFFF, 0xE0)] }) (fun t => t.status) =
      some (.stoppedFinal, some ⟨.fetchOutOfBounds, 0xFFF, none, none⟩) := by decide
/-- E13: an invalid word. -/
theorem test_invalid_word :
    onWord started 0x5121 (fun t => t.status) = some (.stoppedFinal, some ⟨.invalidOpcode, 0x200, some 0x5121, none⟩) := by decide

/-! ### Display -/

/-- D1: clear leaves VF alone and pushes one frame. -/
theorem test_clear :
    onWord ({ started with fb := FrameBuffer.setPixel 5 7 true FrameBuffer.blank }.setReg 0xF 0x5A) 0x00E0
      (fun t => (t.pixel 5 7, t.reg 0xF, t.frames.length)) = some (false, 0x5A, 1) := by decide
/-- W7: a sprite at column 62 is clipped, not wrapped. -/
theorem test_draw_clips :
    onWord ({ started with I := 0x300, mem := [(0x300, 0xF0)] }.setReg 0 62) 0xD011
      (fun t => (t.pixel 62 0, t.pixel 63 0, t.pixel 0 0, t.pixel 0 1, t.reg 0xF)) = some (true, true, false, false, 0) := by decide
/-- D3: an on→off transition sets VF. -/
theorem test_draw_collides :
    onWord { started with I := 0x300, mem := [(0x300, 0xC0)], fb := FrameBuffer.setPixel 1 0 true FrameBuffer.blank } 0xD011
      (fun t => (t.pixel 0 0, t.pixel 1 0, t.reg 0xF, t.frames.length)) = some (true, false, 1, 1) := by decide

/-! ### Control transfer -/

/-- F1. -/
theorem test_jump : onWord started 0x1ABC (fun t => t.pc) = some 0xABC := by decide
/-- F3. -/
theorem test_call : onWord started 0x2ABC (fun t => (t.stack, t.pc)) = some ([0x202], 0xABC) := by decide
/-- F4, second step: the stack of depth 1 is full. -/
theorem test_call_full :
    onWord { started with params := otherParams, stack := [0x202], pc := 0x202 } 0x2204 (fun t => t.status) =
      some (.stoppedFinal, some ⟨.stackOverflow, 0x202, some 0x2204, none⟩) := by decide
/-- F5. -/
theorem test_ret : onWord { started with stack := [0x456] } 0x00EE (fun t => (t.stack, t.pc)) = some ([], 0x456) := by decide
/-- F6. -/
theorem test_ret_empty :
    onWord started 0x00EE (fun t => t.status) = some (.stoppedFinal, some ⟨.stackUnderflow, 0x200, some 0x00EE, none⟩) := by decide
/-- F7, F8. -/
theorem test_skipEqImm :
    onWord (started.setReg 4 0x2A) 0x342A (fun t => t.pc) = some 0x204 ∧
      onWord (started.setReg 4 0x2B) 0x342A (fun t => t.pc) = some 0x202 := by decide
/-- F9, F10. -/
theorem test_skipNeImm :
    onWord (started.setReg 4 0x2B) 0x442A (fun t => t.pc) = some 0x204 ∧
      onWord (started.setReg 4 0x2A) 0x442A (fun t => t.pc) = some 0x202 := by decide
/-- F11, F12. -/
theorem test_skipEqReg :
    onWord ((started.setReg 1 0x99).setReg 2 0x99) 0x5120 (fun t => t.pc) = some 0x204 ∧
      onWord ((started.setReg 1 0x99).setReg 2 0x98) 0x5120 (fun t => t.pc) = some 0x202 := by decide
/-- F13, F14. -/
theorem test_skipNeReg :
    onWord ((started.setReg 1 0x99).setReg 2 0x98) 0x9120 (fun t => t.pc) = some 0x204 ∧
      onWord ((started.setReg 1 0x99).setReg 2 0x99) 0x9120 (fun t => t.pc) = some 0x202 := by decide
/-- F17: the sum is not reduced modulo 4096. -/
theorem test_jumpOffset : onWord (started.setReg 0 0xFF) 0xBFFF (fun t => t.pc) = some 0x10FE := by decide

/-! ### Registers and ALU -/

/-- A2. -/
theorem test_loadImm : onWord (started.setReg 0xF 0x33) 0x6F00 (fun t => t.reg 0xF) = some 0x00 := by decide
/-- A3. -/
theorem test_addImm :
    onWord ((started.setReg 0 0xFF).setReg 0xF 0x07) 0x7001 (fun t => (t.reg 0, t.reg 0xF)) = some (0x00, 0x07) := by decide
/-- A4. -/
theorem test_copy : onWord ((started.setReg 0 0x12).setReg 1 0x34) 0x8010 (fun t => (t.reg 0, t.reg 1)) = some (0x34, 0x34) := by decide
/-- A5. -/
theorem test_or :
    onWord (((started.setReg 0 0xF0).setReg 1 0x0F).setReg 0xF 0x5A) 0x8011 (fun t => (t.reg 0, t.reg 0xF)) = some (0xFF, 0x5A) := by decide
/-- A6. -/
theorem test_and :
    onWord (((started.setReg 0 0xF0).setReg 1 0x0F).setReg 0xF 0x5A) 0x8012 (fun t => (t.reg 0, t.reg 0xF)) = some (0x00, 0x5A) := by decide
/-- A7. -/
theorem test_xor :
    onWord (((started.setReg 0 0xFF).setReg 1 0x0F).setReg 0xF 0x5A) 0x8013 (fun t => (t.reg 0, t.reg 0xF)) = some (0xF0, 0x5A) := by decide
/-- A10, A11. -/
theorem test_add :
    onWord ((started.setReg 0 0x7F).setReg 1 0x80) 0x8014 (fun t => (t.reg 0, t.reg 0xF)) = some (0xFF, 0) ∧
      onWord ((started.setReg 0 0xFF).setReg 1 0xFF) 0x8014 (fun t => (t.reg 0, t.reg 0xF)) = some (0xFE, 1) := by decide
/-- A26: the destination is VF, in both orders. -/
theorem test_add_to_VF :
    onWord ((started.setReg 0xF 0x05).setReg 1 0xFF) 0x8F14 (fun t => t.reg 0xF) = some 0x04 ∧
      onWord (({ started with params := otherParams }.setReg 0xF 0x05).setReg 1 0xFF) 0x8F14 (fun t => t.reg 0xF) = some 0x01 := by decide
/-- A14, A16. -/
theorem test_sub :
    onWord ((started.setReg 0 0x03).setReg 1 0x05) 0x8015 (fun t => (t.reg 0, t.reg 0xF)) = some (0xFE, 0) ∧
      onWord (started.setReg 0 0x9C) 0x8005 (fun t => (t.reg 0, t.reg 0xF)) = some (0x00, 1) := by decide
/-- A27. -/
theorem test_sub_to_VF :
    onWord ((started.setReg 0xF 0x03).setReg 1 0x05) 0x8F15 (fun t => t.reg 0xF) = some 0xFE ∧
      onWord (({ started with params := otherParams }.setReg 0xF 0x03).setReg 1 0x05) 0x8F15 (fun t => t.reg 0xF) = some 0x00 := by decide
/-- A17: Vy is ignored. -/
theorem test_shiftRight :
    onWord ((started.setReg 0 0x01).setReg 7 0xAA) 0x8076 (fun t => (t.reg 0, t.reg 7, t.reg 0xF)) = some (0x00, 0xAA, 1) := by decide
/-- A19. -/
theorem test_shiftRight_high : onWord (started.setReg 0 0x80) 0x8006 (fun t => (t.reg 0, t.reg 0xF)) = some (0x40, 0) := by decide
/-- A23, both destinations. -/
theorem test_subReverse :
    onWord ((started.setReg 0 0x03).setReg 1 0x05) 0x8017 (fun t => (t.reg 0, t.reg 1, t.reg 0xF)) = some (0x03, 0x02, 1) ∧
      onWord (({ started with params := otherParams }.setReg 0 0x03).setReg 1 0x05) 0x8017
        (fun t => (t.reg 0, t.reg 1, t.reg 0xF)) = some (0x02, 0x05, 1) := by decide
/-- A30: the destination Vy is VF. -/
theorem test_subReverse_to_VF :
    onWord ((started.setReg 0xF 0x05).setReg 0 0x03) 0x80F7 (fun t => (t.reg 0, t.reg 0xF)) = some (0x03, 0x02) := by decide
/-- A20. -/
theorem test_shiftLeft : onWord (started.setReg 0 0x81) 0x800E (fun t => (t.reg 0, t.reg 0xF)) = some (0x02, 1) := by decide
/-- A22. -/
theorem test_shiftLeft_low : onWord (started.setReg 0 0x7F) 0x800E (fun t => (t.reg 0, t.reg 0xF)) = some (0xFE, 0) := by decide
/-- A34: the drawn byte is masked, and one byte is drawn. -/
theorem test_random :
    onWord started 0xC3F0 (fun t => (t.reg 3, t.randDraws)) = some (Config.randByte 0 &&& 0xF0, 1) := by rfl

/-! ### Index register and memory -/

/-- M1. -/
theorem test_loadIndex : onWord started 0xA123 (fun t => t.I) = some 0x123 := by decide
/-- M3, both values of the parameter. -/
theorem test_addToIndex :
    onWord (({ started with I := 0xFFE }.setReg 3 0x03).setReg 0xF 0x77) 0xF31E (fun t => (t.I, t.reg 0xF)) = some (0x1001, 0x77) ∧
      onWord (({ started with I := 0xFFE, params := otherParams }.setReg 3 0x03).setReg 0xF 0x77) 0xF31E
        (fun t => (t.I, t.reg 0xF)) = some (0x1001, 1) := by decide
/-- M4: the 16-bit wrap. -/
theorem test_addToIndex_wraps :
    onWord ({ started with I := 0xFFFF, params := otherParams }.setReg 0 0x01) 0xF01E (fun t => (t.I, t.reg 0xF)) = some (0x0000, 1) := by decide
/-- M7. -/
theorem test_bcd :
    onWord ({ started with I := 0x300 }.setReg 0 0xFE) 0xF033 (fun t => (t.readBytes 0x300 3, t.I)) = some ([2, 5, 4], 0x300) := by decide
/-- M9. -/
theorem test_bcd_outOfBounds :
    onWord { started with I := 0xFFE } 0xF033 (fun t => t.status) =
      some (.stoppedFinal, some ⟨.dataOutOfBounds, 0x200, some 0xF033, some 0x1000⟩) := by decide
/-- M10. -/
theorem test_storeRegs :
    onWord ((({ started with I := 0x300 }.setReg 0 0x11).setReg 1 0x22).setReg 2 0x33) 0xF255
      (fun t => (t.readBytes 0x300 4, t.I)) = some ([0x11, 0x22, 0x33, 0x00], 0x300) := by decide
/-- M13. -/
theorem test_storeRegs_outOfBounds :
    onWord { started with I := 0xFF1 } 0xFF55 (fun t => t.status) =
      some (.stoppedFinal, some ⟨.dataOutOfBounds, 0x200, some 0xFF55, some 0x1000⟩) := by decide
/-- M14. -/
theorem test_loadRegs :
    onWord { started with I := 0x300, mem := [(0x300, 0xAA), (0x301, 0xBB), (0x302, 0xCC), (0x303, 0xDD)] } 0xF265
      (fun t => (t.firstRegs 4, t.I)) = some ([0xAA, 0xBB, 0xCC, 0x00], 0x300) := by decide
/-- M16. -/
theorem test_loadRegs_outOfBounds :
    onWord { started with I := 0x1000 } 0xF065 (fun t => t.status) =
      some (.stoppedFinal, some ⟨.dataOutOfBounds, 0x200, some 0xF065, some 0x1000⟩) := by decide

/-! ### Timers, keys, host -/

/-- The example of R240. -/
theorem test_readDelay : onWord { started with DT := 0x3C } 0xF507 (fun t => (t.reg 5, t.DT)) = some (0x3C, 0x3C) := by decide
/-- The example of R241. -/
theorem test_setDelay : onWord (started.setReg 5 10) 0xF515 (fun t => (t.DT, t.ST)) = some (10, 0) := by decide
/-- T6. -/
theorem test_setSound : onWord (started.setReg 2 0x30) 0xF218 (fun t => (t.delayValue, t.soundValue)) = some (0, 0x30) := by decide
/-- T9, first step. -/
theorem test_blockForKey : onWord started 0xF30A (fun t => (t.run, t.pc, t.reg 3)) = some (.waitKey 3, 0x202, 0) := by decide
/-- T9, second step. -/
theorem test_key_arrives :
    Result.view (step { started with run := .waitKey 3, pc := 0x202, keys := [.key 7] }) (fun t => (t.reg 3, t.run, t.pc)) =
      some (7, .running, 0x202) := by decide
/-- T10, second step. -/
theorem test_key_closed :
    Result.view (step { started with run := .waitKey 3, pc := 0x202, keys := [.closed] }) (fun t => t.status) =
      some (.stoppedFinal, some ⟨.keySourceClosed, 0x200, some 0xF30A, none⟩) := by decide
/-- T5. -/
theorem test_tick : Result.view (step { started with DT := 5, ST := 1, schedule := [.tick] }) (fun t => (t.DT, t.ST)) = some (4, 0) := by decide
/-- T8: no tick occurs before start. -/
theorem test_tick_stopped :
    Result.view (step { State.reset with DT := 5, schedule := [.tick] }) (fun t => t.DT) = some 5 := by decide
/-- X5, X7. -/
theorem test_start_halt :
    Result.view (step { State.reset with schedule := [.start] }) (fun t => t.run) = some .running ∧
      Result.view (step { started with schedule := [.halt] }) (fun t => t.status) = some (.stoppedFinal, none) ∧
      Result.view (step { started with run := .stoppedFinal, schedule := [.start] }) (fun t => t.run) = some .stoppedFinal := by decide
/-- A key the host hands over is delivered after those already queued (R277). -/
theorem test_offerKey :
    Result.view (step { started with keys := [.key 1], schedule := [.key .closed] }) (fun t => t.keys) = some [.key 1, .closed] := by decide
/-- X1, X9: construction of the program 12 00. -/
theorem test_construct :
    (match State.construct Params.default [0x12, 0x00] with
      | .ok s => (s.readByte 0x200, s.readByte 0x201, s.readByte 0x050, s.readByte 0x09F, s.readByte 0x0A0, s.pc, s.run)
      | .error _ => (0, 0, 0, 0, 1, 0, .running)) = (0x12, 0, 0xF0, 0x80, 0, 0x200, .stoppedInitial) := by decide
/-- Construction with the default parameters and no program is the reset state. -/
theorem test_construct_reset : State.construct Params.default [] = .ok State.reset := by rfl
/-- R261: the codes. -/
theorem test_codes :
    [FatalKind.programTooLarge, .fetchOutOfBounds, .invalidOpcode, .stackUnderflow, .stackOverflow, .dataOutOfBounds,
      .keySourceClosed].map FatalKind.code = [1, 2, 3, 4, 5, 6, 7] := by decide
/-- Writing what an unlisted address reads as removes the entry (log 12). -/
theorem test_canonical :
    Memory.write conventionalFont 0x300 0 [(0x300, 7)] = [] ∧ Memory.write conventionalFont 0x050 0xF0 [] = [] := by decide

/-! ### Witnesses: for every statement with hypotheses, states that meet them -/

theorem witness_EncodeOfDecodeIsTheWord : decodeWord 0x8014 = some (.add 0 1) := by decide
theorem witness_DecodeFollowsTheOpcodeMap :
    decodeWord 0xF065 = some (.loadRegs 0) ∧ (⟨0xF055, 0xF0FF⟩ : OpcodeRow).selects 0xF055 = true := by decide
theorem witness_SecondaryDispatch :
    classOf 0x00EE = 0x0 ∧ classOf 0x512F = 0x5 ∧ classOf 0x9120 = 0x9 ∧ classOf 0x812F = 0x8 ∧ classOf 0xEFFF = 0xE ∧
      classOf 0xFF65 = 0xF ∧ nOf 0x512F ≠ 0 ∧ nOf 0x9121 ≠ 0 := by decide
theorem witness_FetchedWordIsBigEndian : ({ started with pc := 0xFFE } : State).pc.toNat + 1 ≤ 0xFFF := by decide
theorem witness_FetchAdvances : ({ started with pc := 0xFFE } : State).pc.toNat + 1 ≤ 0xFFF := by decide
theorem witness_FetchStops :
    0xFFF < ({ started with pc := 0xFFF } : State).pc.toNat + 1 ∧ State.readyToFetch { started with pc := 0xFFF } ∧
      State.readyToFetch { started with pc := 0xFFF, schedule := [.engine, .tick] } := by decide

/-- A running engine at the last word, 0xFFE, which holds a jump to itself (95_test_vectors.md F19). -/
def atLastWord : State := { started with pc := 0xFFE, mem := [(0xFFE, 0x1F), (0xFFF, 0xFE)] }

theorem witness_StepRunsTheDecodedInstruction :
    atLastWord.run = .running ∧ atLastWord.fault = none ∧ atLastWord.pc.toNat + 1 ≤ 0xFFF ∧
      decodeWord atLastWord.wordAtPc = some (.jump 0xFFE) ∧ atLastWord.schedule = [] := by decide
theorem witness_StepRunsTheScheduledEngine :
    ({ atLastWord with schedule := [.engine, .tick] } : State).schedule = .engine :: [.tick] ∧
      decodeWord (State.wordAtPc { atLastWord with schedule := [.engine, .tick] }) = some (.jump 0xFFE) := by decide
theorem witness_InvalidWordStopsTheEngine :
    State.readyToFetch { started with pc := 0xFFE } ∧ State.readyToFetch { started with pc := 0xFFE, schedule := [.engine, .tick] } ∧ ({ started with pc := 0xFFE } : State).pc.toNat + 1 ≤ 0xFFF ∧
      decodeWord (State.wordAtPc { started with pc := 0xFFE }) = none := by decide
theorem witness_EngineWithoutAStepIsStuck :
    (State.reset.engineMovesNext ∧ State.engineMovesNext { State.reset with schedule := [.engine, .start] } ∧ State.reset.fault = none ∧ State.reset.run = .stoppedInitial) ∧
      ({ started with run := .stoppedFinal } : State).run = .stoppedFinal ∧
      ({ started with run := .waitKey 2 } : State).run = .waitKey 2 ∧ started.keys = [] := by decide
theorem witness_DrawSprite_inBounds :
    (0x0 : Nibble).toNat = 0 ∧ ({ started with I := 0xFFF } : State).I.toNat + (1 : Nibble).toNat - 1 ≤ 0xFFF := by decide
theorem witness_DrawSprite_outOfBounds :
    1 ≤ (2 : Nibble).toNat ∧ 0xFFF < ({ started with I := 0xFFF } : State).I.toNat + (2 : Nibble).toNat - 1 ∧
      0xFFF < ({ started with I := 0x1000 } : State).I.toNat + (1 : Nibble).toNat - 1 := by decide
theorem witness_DrawingTwice :
    (0 : Nibble) ≠ 0xF ∧ (1 : Nibble) ≠ 0xF ∧ ({ started with I := 0xFFF } : State).I.toNat + (1 : Nibble).toNat - 1 ≤ 0xFFF := by decide
/-- One instruction, load-imm, meets the hypotheses of the four statements "only … write". -/
theorem witness_OnlyStatements :
    exec (.loadImm 3 7) started = .next (started.setReg 3 7) ∧ started.fault = none ∧ (started.setReg 3 7).fault = none ∧
      Instr.loadImm 3 7 ≠ .clear ∧ (∀ x y n, Instr.loadImm 3 7 ≠ .drawSprite x y n) ∧ (∀ nnn, Instr.loadImm 3 7 ≠ .loadIndex nnn) ∧
      (∀ x, Instr.loadImm 3 7 ≠ .addToIndex x) ∧ (∀ x, Instr.loadImm 3 7 ≠ .bcd x) ∧ (∀ x, Instr.loadImm 3 7 ≠ .storeRegs x) ∧
      Instr.loadImm 3 7 ≠ .ret ∧ (∀ nnn, Instr.loadImm 3 7 ≠ .call nnn) ∧ (∀ x, Instr.loadImm 3 7 ≠ .setDelay x) ∧
      ∀ x, Instr.loadImm 3 7 ≠ .setSound x :=
  ⟨rfl, rfl, rfl, by simp, by simp, by simp, by simp, by simp, by simp, by simp, by simp, by simp, by simp⟩
theorem witness_ReturnPopsThePc : ({ started with stack := [0x456] } : State).stack = 0x456 :: [] ∧ started.stack = [] := by decide
theorem witness_Call_room :
    started.params.stackDepth ≠ some started.stack.length ∧
      ({ started with params := otherParams } : State).params.stackDepth ≠ some ({ started with params := otherParams } : State).stack.length := by decide
theorem witness_Call_full :
    ({ started with params := otherParams, stack := [0x202] } : State).params.stackDepth =
      some ({ started with params := otherParams, stack := [0x202] } : State).stack.length := by decide
theorem witness_parameters :
    started.params.subReverseDest = .vy ∧ otherParams.subReverseDest = .vx ∧ started.params.flagWriteOrder = .resultLast ∧
      otherParams.flagWriteOrder = .flagLast ∧ started.params.indexOverflowVf = false ∧ otherParams.indexOverflowVf = true ∧
      (1 : Nibble) ≠ 0xF := by decide
theorem witness_Bcd :
    State.memCanonical { started with I := 0xFFD } ∧ ({ started with I := 0xFFD } : State).I.toNat + 2 ≤ 0xFFF ∧
      0xFFF < ({ started with I := 0xFFE } : State).I.toNat + 2 := by decide
theorem witness_StoreAndLoadRegs :
    State.memCanonical { started with I := 0xFF0 } ∧ ({ started with I := 0xFF0 } : State).I.toNat + (0xF : Nibble).toNat ≤ 0xFFF ∧
      0xFFF < ({ started with I := 0xFF1 } : State).I.toNat + (0xF : Nibble).toNat := by decide
theorem witness_StoredBytesAreFetchedNext :
    State.memCanonical { started with I := 0x200 } ∧ ({ started with I := 0x200 } : State).I.toNat + (1 : Nibble).toNat ≤ 0xFFF ∧
      0 + 1 ≤ (1 : Nibble).toNat ∧ ({ started with I := 0x200 } : State).pc.toNat = State.dataAddr { started with I := 0x200 } 0 := by decide
/-- An engine waiting for a key for VF, in an interleaved run. -/
def waiting : State := { started with run := .waitKey 0xF, keys := [.key 0xC], schedule := [.engine, .halt] }

theorem witness_KeyEventEndsTheWait :
    waiting.run = .waitKey 0xF ∧ waiting.fault = none ∧ waiting.engineMovesNext ∧
      State.engineMovesNext { waiting with schedule := [] } ∧ waiting.keys = .key 0xC :: [] ∧
      ({ waiting with keys := [.closed] } : State).keys = .closed :: [] := by decide
theorem witness_Tick :
    ({ started with schedule := [.tick] } : State).schedule = .tick :: [] ∧ started.run.isRunning = true ∧
      State.reset.run.isRunning = false := by decide
theorem witness_KeyMove :
    ({ started with schedule := [.key (.key 1), .engine] } : State).schedule = .key (.key 1) :: [.engine] ∧
      ({ started with schedule := [.key .closed] } : State).schedule = .key .closed :: [] := by decide
theorem witness_TicksReachZeroAndStay :
    ({ started with schedule := [.tick, .tick, .engine] } : State).run.isRunning = true ∧
      ({ started with schedule := [.tick, .tick, .engine] } : State).schedule = List.replicate 2 .tick ++ [.engine] := by decide
theorem witness_StartAndHalt :
    ({ State.reset with schedule := [.start] } : State).schedule = .start :: [] ∧
      ({ started with schedule := [.halt] } : State).schedule = .halt :: [] := by decide
theorem witness_Construction : (List.replicate 3584 (0x12 : Byte)).length ≤ 3584 :=
  Nat.le_of_eq List.length_replicate
theorem witness_ConstructionRefuses : 3584 < (List.replicate 3585 (0x12 : Byte)).length := by
  rw [List.length_replicate]; decide

/-- A running machine with a tick scheduled: a step that answers a next state and keeps every invariant. -/
theorem witness_StepKeepsMemoryCanonical :
    State.memCanonical { started with schedule := [.tick] } ∧ step { started with schedule := [.tick] } = .next started :=
  ⟨by decide, rfl⟩
theorem witness_StepKeepsThePcBounded :
    State.pcBounded { started with schedule := [.tick], stack := [0x1000] } ∧
      step { started with schedule := [.tick], stack := [0x1000] } = .next { started with stack := [0x1000] } :=
  ⟨⟨by decide, List.forall_mem_singleton.2 (by decide)⟩, rfl⟩
theorem witness_StepKeepsFaultMeansStopped :
    State.faultMeansStopped { started with schedule := [.tick] } ∧ step { started with schedule := [.tick] } = .next started :=
  ⟨fun h => absurd h (by decide), rfl⟩
/-- A stack at its depth, and the machine still moves. -/
theorem witness_StackWithinDepth_full :
    State.stackWithinDepth { started with params := otherParams, stack := [0x202], schedule := [.tick] } ∧
      step { started with params := otherParams, stack := [0x202], schedule := [.tick] } =
        .next { started with params := otherParams, stack := [0x202] } := by
  refine ⟨?_, rfl⟩
  intro d hd
  have : some 1 = some d := hd
  simp_all

/-- A machine whose run ended in a fault, with a tick still scheduled. -/
def afterFault : State :=
  { started with run := .stoppedFinal, fault := some ⟨.invalidOpcode, 0x200, some 0, none⟩, schedule := [.tick] }

theorem witness_FaultRecordIsNeverCleared :
    afterFault.fault = some ⟨.invalidOpcode, 0x200, some 0, none⟩ ∧ afterFault.faultMeansStopped ∧
      step afterFault = .next { afterFault with schedule := [] } :=
  ⟨rfl, by decide, rfl⟩
theorem witness_RunStateTransitions :
    step { State.reset with schedule := [.start] } = .next { State.reset with run := .running } ∧
      step { started with schedule := [.halt] } = .next { started with run := .stoppedFinal } ∧
      step { started with run := .stoppedFinal, schedule := [.start] } = .next { started with run := .stoppedFinal } :=
  ⟨rfl, rfl, rfl⟩
theorem witness_NothingChangesAfterAHalt :
    State.endedWell { started with run := .stoppedFinal, schedule := [.tick] } ∧
      step { started with run := .stoppedFinal, schedule := [.tick] } = .next { started with run := .stoppedFinal } :=
  ⟨by decide, rfl⟩

end Sys2Proof.Machine
end

section
/-! Proofs of the encoding family: what each class of words decodes to (30_encoding.md R106 to R112), that
decode inverts encode on the words that decode, and that decode is the selection of R107. -/

namespace Sys2Proof

/-! ### Decode, class by class -/

theorem decodeClass8_isSome_iff (x y n : Nibble) :
    (decodeClass8 x y n).isSome = true ↔ n.toNat ∈ [0x0, 0x1, 0x2, 0x3, 0x4, 0x5, 0x6, 0x7, 0xE] := by
  unfold decodeClass8
  split <;> simp_all

theorem decodeClassF_isSome_iff (x : Nibble) (nn : Byte) :
    (decodeClassF x nn).isSome = true ↔ nn.toNat ∈ [0x07, 0x0A, 0x15, 0x18, 0x1E, 0x33, 0x55, 0x65] := by
  unfold decodeClassF
  split <;> simp_all

/-- R109: the classes that hold one instruction each, for the words with `n` = 0. -/
theorem decodeWord_isSome_iff_of_class5_or_9 {w : Word} (h : classOf w = 0x5 ∨ classOf w = 0x9) :
    (decodeWord w).isSome = true ↔ nOf w = 0 := by
  rcases h with h | h <;> by_cases hn : nOf w = 0 <;> simp [decodeWord, h, hn]

/-- R110. -/
theorem decodeWord_of_class8 {w : Word} (h : classOf w = 0x8) :
    decodeWord w = decodeClass8 (xOf w) (yOf w) (nOf w) := by
  simp [decodeWord, h]

/-- R111. -/
theorem decodeWord_of_classE {w : Word} (h : classOf w = 0xE) : decodeWord w = none := by
  simp [decodeWord, h]

/-- R112. -/
theorem decodeWord_of_classF {w : Word} (h : classOf w = 0xF) : decodeWord w = decodeClassF (xOf w) (nnOf w) := by
  simp [decodeWord, h]

/-- The classes of which every word is an instruction: the rows of R107 with mask 0xF000. -/
def wholeClasses : List Nibble := [0x1, 0x2, 0x3, 0x4, 0x6, 0x7, 0xA, 0xB, 0xC, 0xD]

theorem decodeWord_isSome_of_wholeClass {w : Word} (h : classOf w ∈ wholeClasses) :
    (decodeWord w).isSome = true := by
  simp only [wholeClasses, List.mem_cons, List.not_mem_nil, or_false] at h
  rcases h with h | h | h | h | h | h | h | h | h | h <;> simp [decodeWord, h]

/-- Settles O4, class by class. -/
theorem secondaryDispatchAcceptsExactlyTheListedWords :
    Obligations.SecondaryDispatchAcceptsExactlyTheListedWords := by
  intro w
  refine ⟨decodeWord_isSome_iff_of_class5_or_9, fun h => ?_, decodeWord_of_classE, fun h => ?_⟩
  · rw [decodeWord_of_class8 h]
    exact decodeClass8_isSome_iff _ _ _
  · rw [decodeWord_of_classF h]
    exact decodeClassF_isSome_iff _ _

/-! ### A word that decodes is the encoding of its instruction -/

theorem encode_of_decodeClass8 {x y n : Nibble} {i : Instr} (h : decodeClass8 x y n = some i) :
    encode i = packXYN 0x8 x y n := by
  unfold decodeClass8 at h
  split at h <;> cases h
  all_goals next hn => exact congrArg (packXYN 0x8 x y) (BitVec.eq_of_toNat_eq hn.symm)

theorem encode_of_decodeClassF {x : Nibble} {nn : Byte} {i : Instr} (h : decodeClassF x nn = some i) :
    encode i = packXNN 0xF x nn := by
  unfold decodeClassF at h
  split at h <;> cases h
  all_goals next hnn => exact congrArg (packXNN 0xF x) (BitVec.eq_of_toNat_eq hnn.symm)

theorem packNNN_eq_of_class {w : Word} {c : Nibble} (hc : (classOf w).toNat = c.toNat) : packNNN c (nnnOf w) = w :=
  BitVec.eq_of_toNat_eq hc ▸ packNNN_fields w

theorem packXNN_eq_of_class {w : Word} {c : Nibble} (hc : (classOf w).toNat = c.toNat) :
    packXNN c (xOf w) (nnOf w) = w :=
  BitVec.eq_of_toNat_eq hc ▸ packXNN_fields w

theorem packXYN_eq_of_class {w : Word} {c : Nibble} (hc : (classOf w).toNat = c.toNat) :
    packXYN c (xOf w) (yOf w) (nOf w) = w :=
  BitVec.eq_of_toNat_eq hc ▸ packXYN_fields w

theorem packXYN_zero_eq_of_class {w : Word} {c : Nibble} (hc : (classOf w).toNat = c.toNat) (hn : nOf w = 0) :
    packXYN c (xOf w) (yOf w) 0 = w :=
  hn ▸ packXYN_eq_of_class hc

/-- A word that decodes is the encoding of its instruction; the cases are the classes of R106. -/
theorem encode_of_decodeWord {w : Word} {i : Instr} (h : decodeWord w = some i) : encode i = w := by
  unfold decodeWord at h
  split at h
  -- class 0: an exact match
  case h_1 =>
    split at h
    · next hw => cases h; exact hw.symm
    · split at h <;> cases h
      next hw => exact hw.symm
  -- classes 5 and 9: `n` is 0
  case h_6 | h_10 =>
    split at h <;> cases h
    exact packXYN_zero_eq_of_class ‹_› ‹_›
  -- classes 8 and F: secondary dispatch
  case h_9 => exact (encode_of_decodeClass8 h).trans (packXYN_eq_of_class ‹_›)
  case h_15 => exact (encode_of_decodeClassF h).trans (packXNN_eq_of_class ‹_›)
  -- the classes of one instruction each, by format; class E is gone with `cases h`
  all_goals cases h
  case h_2 | h_3 | h_11 | h_12 => exact packNNN_eq_of_class ‹_›
  case h_4 | h_5 | h_7 | h_8 | h_13 => exact packXNN_eq_of_class ‹_›
  case h_14 => exact packXYN_eq_of_class ‹_›

/-! ### The opcode map -/

/-- Every instruction's row is in the opcode map and selects its word. -/
theorem Instr.rowFits : (i : Instr) → Laws.RowFits.Statement i
  | .clear => Laws.RowFits.clear
  | .ret => Laws.RowFits.ret
  | .jump nnn => Laws.RowFits.jump nnn
  | .call nnn => Laws.RowFits.call nnn
  | .skipEqImm x nn => Laws.RowFits.skipEqImm x nn
  | .skipNeImm x nn => Laws.RowFits.skipNeImm x nn
  | .skipEqReg x y => Laws.RowFits.skipEqReg x y
  | .loadImm x nn => Laws.RowFits.loadImm x nn
  | .addImm x nn => Laws.RowFits.addImm x nn
  | .copy x y => Laws.RowFits.copy x y
  | .or x y => Laws.RowFits.or x y
  | .and x y => Laws.RowFits.and x y
  | .xor x y => Laws.RowFits.xor x y
  | .add x y => Laws.RowFits.add x y
  | .sub x y => Laws.RowFits.sub x y
  | .shiftRight x y => Laws.RowFits.shiftRight x y
  | .subReverse x y => Laws.RowFits.subReverse x y
  | .shiftLeft x y => Laws.RowFits.shiftLeft x y
  | .skipNeReg x y => Laws.RowFits.skipNeReg x y
  | .loadIndex nnn => Laws.RowFits.loadIndex nnn
  | .jumpOffset nnn => Laws.RowFits.jumpOffset nnn
  | .random x nn => Laws.RowFits.random x nn
  | .drawSprite x y n => Laws.RowFits.drawSprite x y n
  | .readDelay x => Laws.RowFits.readDelay x
  | .blockForKey x => Laws.RowFits.blockForKey x
  | .setDelay x => Laws.RowFits.setDelay x
  | .setSound x => Laws.RowFits.setSound x
  | .addToIndex x => Laws.RowFits.addToIndex x
  | .bcd x => Laws.RowFits.bcd x
  | .storeRegs x => Laws.RowFits.storeRegs x
  | .loadRegs x => Laws.RowFits.loadRegs x

theorem row_of_decodeWord {w : Word} {i : Instr} (h : decodeWord w = some i) :
    i.row ∈ opcodeMap ∧ i.row.selects w = true := by
  obtain ⟨hmem, hsel⟩ := i.rowFits
  rw [encode_of_decodeWord h] at hsel
  exact ⟨hmem, hsel⟩

theorem OpcodeRow.selects_iff (r : OpcodeRow) (w : Word) : r.selects w = true ↔ w &&& r.mask = r.pattern :=
  beq_iff_eq

/-- A field the mask of a row keeps whole has, in every selected word, the value it has in the pattern. -/
theorem OpcodeRow.extract_eq_of_selects {r : OpcodeRow} {w : Word} {start len : Nat} (h : r.selects w = true)
    (hmask : r.mask.extractLsb' start len = BitVec.allOnes len) :
    w.extractLsb' start len = r.pattern.extractLsb' start len := by
  rw [← (r.selects_iff w).1 h, BitVec.extractLsb'_and, hmask, BitVec.and_allOnes]

/-- The rows of R107 by mask: the whole word, the class, the class and `n`, or the class and `nn`. -/
theorem opcodeMap_rows_by_mask : ∀ r ∈ opcodeMap,
    (r.mask = 0xFFFF ∧ (decodeWord r.pattern).isSome = true) ∨
    (classOf r.mask = 0xF ∧ classOf r.pattern ∈ wholeClasses) ∨
    (classOf r.mask = 0xF ∧ nOf r.mask = 0xF ∧ (classOf r.pattern = 0x5 ∨ classOf r.pattern = 0x9) ∧ nOf r.pattern = 0) ∨
    (classOf r.mask = 0xF ∧ nOf r.mask = 0xF ∧ classOf r.pattern = 0x8 ∧
      (nOf r.pattern).toNat ∈ [0x0, 0x1, 0x2, 0x3, 0x4, 0x5, 0x6, 0x7, 0xE]) ∨
    (classOf r.mask = 0xF ∧ nnOf r.mask = 0xFF ∧ classOf r.pattern = 0xF ∧
      (nnOf r.pattern).toNat ∈ [0x07, 0x0A, 0x15, 0x18, 0x1E, 0x33, 0x55, 0x65]) := by
  decide

theorem decodeWord_isSome_of_selects {r : OpcodeRow} {w : Word} (hr : r ∈ opcodeMap) (h : r.selects w = true) :
    (decodeWord w).isSome = true := by
  have hclass : classOf r.mask = 0xF → classOf w = classOf r.pattern := OpcodeRow.extract_eq_of_selects h
  have hn : nOf r.mask = 0xF → nOf w = nOf r.pattern := OpcodeRow.extract_eq_of_selects h
  have hnn : nnOf r.mask = 0xFF → nnOf w = nnOf r.pattern := OpcodeRow.extract_eq_of_selects h
  obtain ⟨hm, hp⟩ | ⟨hm, hp⟩ | ⟨hm, hmn, hp, hpn⟩ | ⟨hm, hmn, hp, hpn⟩ | ⟨hm, hmn, hp, hpn⟩ :=
    opcodeMap_rows_by_mask r hr
  · have hw : w = r.pattern := by
      rw [← (r.selects_iff w).1 h, hm]
      exact BitVec.and_allOnes.symm
    rwa [hw]
  · exact decodeWord_isSome_of_wholeClass (hclass hm ▸ hp)
  · exact (decodeWord_isSome_iff_of_class5_or_9 (hclass hm ▸ hp)).2 (hn hmn ▸ hpn)
  · rw [decodeWord_of_class8 (hclass hm ▸ hp), decodeClass8_isSome_iff, hn hmn]
    exact hpn
  · rw [decodeWord_of_classF (hclass hm ▸ hp), decodeClassF_isSome_iff, hnn hmn]
    exact hpn

theorem decodeWord_isSome_eq_any_selects (w : Word) :
    (decodeWord w).isSome = opcodeMap.any fun r => r.selects w := by
  rw [Bool.eq_iff_iff, List.any_eq_true]
  constructor
  · intro h
    obtain ⟨i, hi⟩ := Option.isSome_iff_exists.1 h
    exact ⟨i.row, row_of_decodeWord hi⟩
  · rintro ⟨r, hr, hsel⟩
    exact decodeWord_isSome_of_selects hr hsel

/-- Two rows whose patterns differ in a bit both masks keep select no common word. -/
theorem OpcodeRow.selects_eq_false_of_differ {r r' : OpcodeRow}
    (hne : r.pattern &&& r'.mask ≠ r'.pattern &&& r.mask) {w : Word} (h : r.selects w = true) :
    r'.selects w = false := by
  refine Bool.eq_false_iff.2 fun h' => hne ?_
  rw [← (r.selects_iff w).1 h, ← (r'.selects_iff w).1 h']
  ac_rfl

theorem opcodeMap_patterns_differ :
    opcodeMap.Pairwise fun r r' => r.pattern &&& r'.mask ≠ r'.pattern &&& r.mask := by
  decide

/-- Settles O3: a row of the map pins the fields decode dispatches on, and any two rows differ in a bit both
masks keep. -/
theorem decodeFollowsTheOpcodeMap : Obligations.DecodeFollowsTheOpcodeMap :=
  ⟨decodeWord_isSome_eq_any_selects, fun _ _ => row_of_decodeWord,
    opcodeMap_patterns_differ.imp fun hne _ => OpcodeRow.selects_eq_false_of_differ hne⟩

end Sys2Proof
end

section
/-! Proofs of the display family (40_display.md). -/

namespace Sys2Proof.Machine

theorem State.replaceFb_onlyChanges (fb : FrameBuffer) (s : State) :
    onlyChanges (fun p => ∃ c r, p = .pixel c r) s { s with fb := fb } := by
  intro p hp
  cases p with
  | pixel c r => exact absurd ⟨c, r, rfl⟩ hp
  | _ => rfl

/-- `clear` is a blank frame buffer, then a push. -/
theorem exec_clear (s : State) : exec .clear s = .next { s with fb := FrameBuffer.blank }.pushFrame := rfl

/-- Settles O12: `clear` blanks, which touches only pixels, and then pushes, which touches only the frames. -/
theorem clearBlanksTheFrameAndPushes : Obligations.ClearBlanksTheFrameAndPushes := by
  refine ⟨rfl, fun s => ⟨_, exec_clear s, FrameBuffer.pixel_blank, State.pushFrame_pushesOnce _, ?_⟩⟩
  exact ((State.replaceFb_onlyChanges _ s).mono fun _ => Or.inr).trans
    ((State.pushFrame_onlyChanges _).mono fun _ => Or.inl)

end Sys2Proof.Machine
end

section
/-! Proofs of the control transfer family (41_control_flow.md), and the formats of 30_encoding.md R105 read off
an instruction's row of the opcode map. -/

namespace Sys2Proof

/-! ### Formats -/

section Formats
open Machine

theorem Instr.encode_and_mask (i : Instr) : encode i &&& i.row.mask = i.row.pattern :=
  (OpcodeRow.selects_iff _ _).1 i.rowFits.2

variable {i : Instr} {c x y : Nibble} {nn : Byte} {nnn : Addr12}

theorem Instr.fitsNNN_of_encode (hw : encode i = packNNN c nnn) (hm : i.row.mask = 0xF000) :
    fitsNNN i.row.pattern (encode i) nnn :=
  ⟨hm ▸ i.encode_and_mask, hw ▸ nnnOf_packNNN c nnn⟩

theorem Instr.fitsXNN_of_encode (hw : encode i = packXNN c x nn) (hm : i.row.mask = 0xF000) :
    fitsXNN i.row.pattern (encode i) x nn :=
  ⟨hm ▸ i.encode_and_mask, hw ▸ xOf_packXNN c x nn, hw ▸ nnOf_packXNN c x nn⟩

theorem Instr.fitsXYF_of_encode {n : Nibble} (hw : encode i = packXYN c x y n) (hm : i.row.mask = 0xF00F) :
    fitsXYF i.row.pattern (encode i) x y :=
  ⟨hm ▸ i.encode_and_mask, hw ▸ xOf_packXYN c x y n, hw ▸ yOf_packXYN c x y n⟩

end Formats

/-- R109: any `n` but 0 is invalid in classes 5 and 9. -/
theorem decodeWord_eq_none_of_class5_or_9 {w : Word} (h : classOf w = 0x5 ∨ classOf w = 0x9) (hn : nOf w ≠ 0) :
    decodeWord w = none :=
  Option.not_isSome_iff_eq_none.1 fun hsome => hn ((decodeWord_isSome_iff_of_class5_or_9 h).1 hsome)

end Sys2Proof

namespace Sys2Proof.Machine

/-! ### Updates of the program counter and the stack -/

theorem State.replacePc_onlyChanges (a : Word) (s : State) : onlyChanges (· = .pc) s { s with pc := a } := by
  intro p hp
  cases p with
  | pc => exact absurd rfl hp
  | _ => rfl

theorem State.replaceStack_onlyChanges (l : List Word) (s : State) :
    onlyChanges (· = .stack) s { s with stack := l } := by
  intro p hp
  cases p with
  | stack => exact absurd rfl hp
  | _ => rfl

theorem State.replacePcAndStack_onlyChanges (a : Word) (l : List Word) (s : State) :
    onlyChanges (fun p => p = .pc ∨ p = .stack) s { s with pc := a, stack := l } :=
  ((State.replacePc_onlyChanges a s).mono fun _ => Or.inl).trans
    ((State.replaceStack_onlyChanges l { s with pc := a }).mono fun _ => Or.inr)

theorem State.skipIf_beq_pc (a b : Byte) (s : State) :
    (s.skipIf (a == b)).pc = if a = b then s.pc + 2 else s.pc := by
  simp only [State.skipIf_pc, beq_iff_eq]

theorem State.skipIf_bne_pc (a b : Byte) (s : State) :
    (s.skipIf (a != b)).pc = if a = b then s.pc else s.pc + 2 := by
  simp only [State.skipIf_pc, bne_iff_ne, ite_not]

/-! ### What each instruction answers -/

theorem exec_ret_of_stack_cons {a : Word} {rest : List Word} {s : State} (h : s.stack = a :: rest) :
    exec .ret s = .next { s with pc := a, stack := rest } := by
  simp only [exec, execRet, h]

theorem exec_ret_of_stack_nil {s : State} (h : s.stack = []) :
    exec .ret s = .next (s.fatalIn .ret .stackUnderflow none) := by
  simp only [exec, execRet, h]

theorem exec_jump (nnn : Addr12) (s : State) : exec (.jump nnn) s = .next { s with pc := zext16 nnn } := rfl

theorem exec_skipEqImm (x : Nibble) (nn : Byte) (s : State) :
    exec (.skipEqImm x nn) s = .next (s.skipIf (s.reg x == nn)) := rfl

theorem exec_skipNeImm (x : Nibble) (nn : Byte) (s : State) :
    exec (.skipNeImm x nn) s = .next (s.skipIf (s.reg x != nn)) := rfl

theorem exec_skipEqReg (x y : Nibble) (s : State) :
    exec (.skipEqReg x y) s = .next (s.skipIf (s.reg x == s.reg y)) := rfl

theorem exec_skipNeReg (x y : Nibble) (s : State) :
    exec (.skipNeReg x y) s = .next (s.skipIf (s.reg x != s.reg y)) := rfl

/-! ### The statements -/

/-- Settles O16: the two cases of the stack; the record of the empty one is that of `State.fatalIn`. -/
theorem returnPopsThePc : Obligations.ReturnPopsThePc := by
  refine ⟨rfl, fun s => ⟨fun a rest h => ?_, fun h => ?_⟩⟩
  · exact ⟨_, exec_ret_of_stack_cons h, rfl, rfl, State.replacePcAndStack_onlyChanges a rest s⟩
  · exact ⟨_, exec_ret_of_stack_nil h, State.fatalIn_run _ _ _ _, State.fatalIn_fault _ _ _ _⟩

/-- Settles O17: the zero extension keeps the value of the target. -/
theorem jumpLoadsThePc : Obligations.JumpLoadsThePc := fun nnn s =>
  ⟨(Instr.jump nnn).fitsNNN_of_encode rfl rfl, _, exec_jump nnn s, zext16_toNat nnn, State.replacePc_onlyChanges _ s⟩

/-- Settles O20: both skips are `State.skipIf`, under opposite conditions. -/
theorem immediateSkipsAddTwo : Obligations.ImmediateSkipsAddTwo := by
  intro x nn s
  refine ⟨(Instr.skipEqImm x nn).fitsXNN_of_encode rfl rfl, (Instr.skipNeImm x nn).fitsXNN_of_encode rfl rfl, ?_, ?_⟩
  · exact ⟨_, exec_skipEqImm x nn s, State.skipIf_beq_pc _ _ s, State.skipIf_onlyChanges _ s⟩
  · exact ⟨_, exec_skipNeImm x nn s, State.skipIf_bne_pc _ _ s, State.skipIf_onlyChanges _ s⟩

/-- Settles O21: as for the immediate skips, and R109 for the words with another `n`. -/
theorem registerSkipsAddTwo : Obligations.RegisterSkipsAddTwo := by
  intro x y s
  refine ⟨(Instr.skipEqReg x y).fitsXYF_of_encode rfl rfl, (Instr.skipNeReg x y).fitsXYF_of_encode rfl rfl,
    fun _ => decodeWord_eq_none_of_class5_or_9, ?_, ?_⟩
  · exact ⟨_, exec_skipEqReg x y s, State.skipIf_beq_pc _ _ s, State.skipIf_onlyChanges _ s⟩
  · exact ⟨_, exec_skipNeReg x y s, State.skipIf_bne_pc _ _ s, State.skipIf_onlyChanges _ s⟩

end Sys2Proof.Machine
end

section
/-! Proofs of the register and ALU family (42_alu.md), for the instructions that write no flag. -/

namespace Sys2Proof.Machine

/-! ### What each instruction answers -/

theorem exec_loadImm (x : Nibble) (nn : Byte) (s : State) : exec (.loadImm x nn) s = .next (s.setReg x nn) := rfl

theorem exec_addImm (x : Nibble) (nn : Byte) (s : State) :
    exec (.addImm x nn) s = .next (s.setReg x (aluAdd (s.reg x) nn).1) := rfl

theorem exec_copy (x y : Nibble) (s : State) : exec (.copy x y) s = .next (s.setReg x (s.reg y)) := rfl

theorem exec_or (x y : Nibble) (s : State) : exec (.or x y) s = .next (s.setReg x (s.reg x ||| s.reg y)) := rfl

theorem exec_and (x y : Nibble) (s : State) : exec (.and x y) s = .next (s.setReg x (s.reg x &&& s.reg y)) := rfl

theorem exec_xor (x y : Nibble) (s : State) : exec (.xor x y) s = .next (s.setReg x (s.reg x ^^^ s.reg y)) := rfl

/-- An instruction that answers a single register write completes, leaves the value there and keeps all else. -/
theorem writesOneRegister_of_exec {i : Instr} {x : Nibble} {b : Byte} {s : State}
    (h : exec i s = .next (s.setReg x b)) :
    ∃ t, exec i s = .next t ∧ t.reg x = b ∧ onlyChanges (· = .reg x) s t :=
  ⟨_, h, State.reg_setReg_self x b s, State.setReg_onlyChanges x b s⟩

/-! ### The statements -/

/-- Settles O23: both are one register write. -/
theorem loadImmAndCopyWriteOneRegister : Obligations.LoadImmAndCopyWriteOneRegister := by
  intro x y nn s
  refine ⟨(Instr.loadImm x nn).fitsXNN_of_encode rfl rfl, (Instr.copy x y).fitsXYF_of_encode rfl rfl, ?_, ?_⟩
  · exact writesOneRegister_of_exec (exec_loadImm x nn s)
  · exact writesOneRegister_of_exec (exec_copy x y s)

/-- Settles O24: one register write, of the ALU's sum without its carry. -/
theorem addImmWrapsWithoutFlag : Obligations.AddImmWrapsWithoutFlag := by
  intro x nn s
  obtain ⟨t, hexec, hreg, hframe⟩ := writesOneRegister_of_exec (exec_addImm x nn s)
  have hsum : (t.reg x).toNat = ((s.reg x).toNat + nn.toNat) % 256 := by rw [hreg, aluAdd_toNat]
  exact ⟨(Instr.addImm x nn).fitsXNN_of_encode rfl rfl, t, hexec, hsum, hframe⟩

/-- Settles O25: each is one register write. -/
theorem logicOperationsWriteNoFlag : Obligations.LogicOperationsWriteNoFlag := by
  intro x y s
  refine ⟨(Instr.or x y).fitsXYF_of_encode rfl rfl, (Instr.and x y).fitsXYF_of_encode rfl rfl,
    (Instr.xor x y).fitsXYF_of_encode rfl rfl, ?_, ?_, ?_⟩
  · exact writesOneRegister_of_exec (exec_or x y s)
  · exact writesOneRegister_of_exec (exec_and x y s)
  · exact writesOneRegister_of_exec (exec_xor x y s)

end Sys2Proof.Machine
end

section
/-! Proofs of the index and memory family (43_index_memory.md). -/

namespace Sys2Proof.Machine

theorem State.replaceI_onlyChanges (a : Word) (s : State) : onlyChanges (· = .index) s { s with I := a } := by
  intro p hp
  cases p with
  | index => exact absurd rfl hp
  | _ => rfl

theorem exec_loadIndex (nnn : Addr12) (s : State) : exec (.loadIndex nnn) s = .next { s with I := zext16 nnn } := rfl

/-- Settles O32: the zero extension keeps the value of the address. -/
theorem loadIndexWritesI : Obligations.LoadIndexWritesI := by
  intro nnn s
  refine ⟨(Instr.loadIndex nnn).fitsNNN_of_encode rfl rfl, _, exec_loadIndex nnn s, ?_, ?_⟩
  · exact zext16_toNat nnn
  · exact State.replaceI_onlyChanges _ s

end Sys2Proof.Machine
end

section
/-! Proofs of the timers and keys family (44_timers_keys.md), and the format XF of 30_encoding.md R105 read off
an instruction's row of the opcode map. -/

namespace Sys2Proof

theorem Instr.fitsXF_of_encode {i : Instr} {c x : Nibble} {nn : Byte} (hw : encode i = packXNN c x nn)
    (hm : i.row.mask = 0xF0FF) : Machine.fitsXF i.row.pattern (encode i) x :=
  ⟨hm ▸ i.encode_and_mask, hw ▸ xOf_packXNN c x nn⟩

end Sys2Proof

namespace Sys2Proof.Machine

theorem State.replaceDT_onlyChanges (b : Byte) (s : State) : onlyChanges (· = .delay) s { s with DT := b } := by
  intro p hp
  cases p with
  | delay => exact absurd rfl hp
  | _ => rfl

theorem State.replaceST_onlyChanges (b : Byte) (s : State) : onlyChanges (· = .sound) s { s with ST := b } := by
  intro p hp
  cases p with
  | sound => exact absurd rfl hp
  | _ => rfl

theorem exec_setDelay (x : Nibble) (s : State) : exec (.setDelay x) s = .next { s with DT := s.reg x } := rfl

theorem exec_setSound (x : Nibble) (s : State) : exec (.setSound x) s = .next { s with ST := s.reg x } := rfl

/-- Settles O43: each instruction is one replacement of its counter by the register's value. -/
theorem timerWritesLoadTheCounters : Obligations.TimerWritesLoadTheCounters := by
  intro x s
  refine ⟨(Instr.setDelay x).fitsXF_of_encode rfl rfl, (Instr.setSound x).fitsXF_of_encode rfl rfl, ?_, ?_⟩
  · exact ⟨_, exec_setDelay x s, rfl, State.replaceDT_onlyChanges _ s⟩
  · exact ⟨_, exec_setSound x s, rfl, State.replaceST_onlyChanges _ s⟩

end Sys2Proof.Machine
end

section
/-! Proofs of the round trip of 30_encoding.md: encode and decode are inverse to each other; and which words of
class 0 (R108) and of the spec's examples decode. -/

namespace Sys2Proof

/-- Decode reads every operand back from the field its format puts it in; the cases are the dispatch of R106. -/
theorem decodeWord_encode (i : Instr) : decodeWord (encode i) = some i := by
  cases i with
  -- class 0: the two exact words
  | clear | ret => rfl
  -- the classes of one instruction each, `n` = 0 in classes 5 and 9
  | jump | call | skipEqImm | skipNeImm | loadImm | addImm | loadIndex | jumpOffset | random | drawSprite
  | skipEqReg | skipNeReg => simp [encode, decodeWord]
  -- classes 8 and F: secondary dispatch
  | copy | or | and | xor | add | sub | shiftRight | subReverse | shiftLeft =>
    simp [encode, decodeWord_of_class8, decodeClass8]
  | readDelay | blockForKey | setDelay | setSound | addToIndex | bcd | storeRegs | loadRegs =>
    simp [encode, decodeWord_of_classF, decodeClassF]

theorem decode_of_decodeWord {w : Word} {i : Instr} (h : decodeWord w = some i) (rest : List Byte) :
    decode (highByte w :: lowByte w :: rest) = .ok (i, rest) := by
  simp only [decode, wordOfBytes_bytes, h]

/-- Settles O1, instruction by instruction for the word; the bytes are the word's, high byte first. -/
theorem decodeOfEncodeIsTheInstruction : Obligations.DecodeOfEncodeIsTheInstruction := fun i rest =>
  ⟨decodeWord_encode i, decode_of_decodeWord (decodeWord_encode i) rest⟩

/-- Settles O2, by the classes of R106. -/
theorem encodeOfDecodeIsTheWord : Obligations.EncodeOfDecodeIsTheWord := fun _ _ => encode_of_decodeWord

/-- R108. -/
theorem decodeWord_of_class0 {w : Word} (h : classOf w = 0x0) :
    decodeWord w = if w = 0x00E0 then some .clear else if w = 0x00EE then some .ret else none := by
  simp [decodeWord, h]

/-- Settles O5: the three branches of R108. -/
theorem classZeroAcceptsExactlyTwoWords : Obligations.ClassZeroAcceptsExactlyTwoWords := by
  intro w h
  rw [decodeWord_of_class0 h]
  split_ifs with hclear hret
  · exact iff_of_true rfl (.inl hclear)
  · exact iff_of_true rfl (.inr hret)
  · exact iff_of_false Bool.false_ne_true (not_or.2 ⟨hclear, hret⟩)

/-- Settles O6: fifteen fixed words, decoded. -/
theorem wordsOfTheSpecDecode : Obligations.WordsOfTheSpecDecode := by
  unfold Obligations.WordsOfTheSpecDecode
  decide

end Sys2Proof
end

section
/-! What an instruction does to memory, to the program counter and to the call stack, said once for all, from one
equation per case for each instruction that can take a fatal error. -/

namespace Sys2Proof.Machine

/-! ### The cases of the instructions that can take a fatal error -/

theorem State.stackFull_iff (s : State) : s.stackFull = true ↔ s.params.stackDepth = some s.stack.length := by
  unfold State.stackFull
  split
  · next hd => simp [hd]
  · next d hd => simpa only [hd, beq_iff_eq, Option.some.injEq] using eq_comm

theorem exec_call_of_room {nnn : Addr12} {s : State} (h : s.params.stackDepth ≠ some s.stack.length) :
    exec (.call nnn) s = .next { s with pc := zext16 nnn, stack := s.pc :: s.stack } := by
  simp only [exec, execCall, if_neg (mt s.stackFull_iff.1 h)]

theorem exec_call_of_full {nnn : Addr12} {s : State} (h : s.params.stackDepth = some s.stack.length) :
    exec (.call nnn) s = .next (s.fatalIn (.call nnn) .stackOverflow none) := by
  simp only [exec, execCall, if_pos (s.stackFull_iff.2 h)]

/-- The first address of a data access from `a` that lies outside memory (20_memory.md R75). -/
def firstOutside (a : Word) : Word := if a.toNat < 0x1000 then 0x1000 else a

theorem checkData_of_inBounds {a : Word} {k : Nat} (h : a.toNat + k ≤ 0x1000) : checkData a k = none :=
  (checkData_eq_none_iff a k).2 (.inr h)

theorem checkData_of_outOfBounds {a : Word} {k : Nat} (hk : 1 ≤ k) (h : 0x1000 < a.toNat + k) :
    checkData a k = some (firstOutside a) :=
  checkData_eq_some a k hk h

theorem exec_bcd_of_inBounds {x : Nibble} {s : State} (h : s.I.toNat + 3 ≤ 0x1000) :
    exec (.bcd x) s = .next (s.writeBytes (s.dataAddr 0) (bcdDigits (s.reg x))) := by
  simp only [exec, execBcd, checkData_of_inBounds h]

theorem exec_bcd_of_outOfBounds {x : Nibble} {s : State} (h : 0x1000 < s.I.toNat + 3) :
    exec (.bcd x) s = .next (s.fatalIn (.bcd x) .dataOutOfBounds (some (firstOutside s.I))) := by
  simp only [exec, execBcd, checkData_of_outOfBounds (by decide) h]

theorem one_le_regCount (x : Nibble) : 1 ≤ regCount x := Nat.le_add_left 1 _

theorem exec_storeRegs_of_inBounds {x : Nibble} {s : State} (h : s.I.toNat + regCount x ≤ 0x1000) :
    exec (.storeRegs x) s = .next (s.writeBytes (s.dataAddr 0) (s.firstRegs (regCount x))) := by
  simp only [exec, execStoreRegs, checkData_of_inBounds h]

theorem exec_storeRegs_of_outOfBounds {x : Nibble} {s : State} (h : 0x1000 < s.I.toNat + regCount x) :
    exec (.storeRegs x) s = .next (s.fatalIn (.storeRegs x) .dataOutOfBounds (some (firstOutside s.I))) := by
  simp only [exec, execStoreRegs, checkData_of_outOfBounds (one_le_regCount x) h]

theorem exec_loadRegs_of_inBounds {x : Nibble} {s : State} (h : s.I.toNat + regCount x ≤ 0x1000) :
    exec (.loadRegs x) s = .next (s.loadRegsFrom (s.dataAddr 0) (regCount x)) := by
  simp only [exec, execLoadRegs, checkData_of_inBounds h]

theorem exec_loadRegs_of_outOfBounds {x : Nibble} {s : State} (h : 0x1000 < s.I.toNat + regCount x) :
    exec (.loadRegs x) s = .next (s.fatalIn (.loadRegs x) .dataOutOfBounds (some (firstOutside s.I))) := by
  simp only [exec, execLoadRegs, checkData_of_outOfBounds (one_le_regCount x) h]

theorem exec_drawSprite_of_outOfBounds {x y n : Nibble} {s : State} (hn : 1 ≤ n.toNat)
    (h : 0x1000 < s.I.toNat + n.toNat) :
    exec (.drawSprite x y n) s =
      .next (s.fatalIn (.drawSprite x y n) .dataOutOfBounds (some (firstOutside s.I))) := by
  simp only [exec, execDrawSprite, checkData_of_outOfBounds hn h]

/-- A fatal error taken by an instruction, as the claims read it (60_exceptions.md R263). -/
theorem State.fatalIn_stopsWith (i : Instr) (k : FatalKind) (d : Option Word) (s : State) :
    stopsWith (s.fatalIn i k d) k (s.pc - 2) (some (encode i)) d :=
  ⟨State.fatalIn_run i k d s, State.fatalIn_fault i k d s⟩

/-! ### What every instruction does to a part -/

theorem State.fatal_onlyChanges (r : FaultRecord) (s : State) :
    onlyChanges (fun p => p = .run ∨ p = .fault) s (s.fatal r) := by
  intro p hp
  cases p with
  | run => exact absurd (.inl rfl) hp
  | fault => exact absurd (.inr rfl) hp
  | _ => rfl

/-- A part an instruction may not change stays even where it takes a fatal error. -/
theorem exec_agrees {i : Instr} {s t : State} (h : exec i s = .next t) (p : Part) (hp : ¬ Instr.mayChange i p)
    (hr : ¬ (p = .run ∨ p = .fault)) : Part.agrees s t p := by
  rcases exec_frame i s t h with hframe | ⟨r, rfl⟩
  · exact hframe p hp
  · exact State.fatal_onlyChanges r s p hr

theorem exec_params {i : Instr} {s t : State} (h : exec i s = .next t) : t.params = s.params := by
  refine exec_agrees h .params ?_ (by simp)
  cases i <;> simp [Instr.mayChange]

/-- Memory after an instruction: as before, or with bytes stored from `I`, all of them inside memory. -/
theorem exec_mem {i : Instr} {s t : State} (h : exec i s = .next t) :
    t.mem = s.mem ∨
      ∃ bs : List Byte, s.I.toNat + bs.length ≤ 0x1000 ∧
        t.mem = Memory.writeBytes s.params.font s.I.toNat bs s.mem := by
  cases i with
  | bcd x =>
    by_cases hb : s.I.toNat + 3 ≤ 0x1000
    · cases (exec_bcd_of_inBounds hb).symm.trans h
      exact .inr ⟨bcdDigits (s.reg x), hb, rfl⟩
    · cases (exec_bcd_of_outOfBounds (by omega)).symm.trans h
      exact .inl rfl
  | storeRegs x =>
    by_cases hb : s.I.toNat + regCount x ≤ 0x1000
    · cases (exec_storeRegs_of_inBounds hb).symm.trans h
      exact .inr ⟨s.firstRegs (regCount x), by rwa [State.length_firstRegs], rfl⟩
    · cases (exec_storeRegs_of_outOfBounds (by omega)).symm.trans h
      exact .inl rfl
  | loadRegs x =>
    by_cases hb : s.I.toNat + regCount x ≤ 0x1000
    · cases (exec_loadRegs_of_inBounds hb).symm.trans h
      exact .inl (State.loadRegsFrom_mem _ _ s)
    · cases (exec_loadRegs_of_outOfBounds (by omega)).symm.trans h
      exact .inl rfl
  | ret => simp only [exec, execRet] at h; split at h <;> cases h <;> exact .inl rfl
  | call => simp only [exec, execCall] at h; split at h <;> cases h <;> exact .inl rfl
  | drawSprite => simp only [exec, execDrawSprite] at h; split at h <;> cases h <;> exact .inl rfl
  | addToIndex => simp only [exec, execAddToIndex] at h; split at h <;> cases h <;> exact .inl rfl
  | skipEqImm | skipNeImm | skipEqReg | skipNeReg => cases h; exact .inl (State.skipIf_mem _ s)
  | add | sub | shiftRight | subReverse | shiftLeft => cases h; exact .inl (State.writeFlagged_mem _ _ s)
  | _ => cases h; exact .inl rfl

/-- The program counter and the stack after an instruction: a step on, a skip or a jump with the stack as it
was, a call with room on the stack, or a return. -/
theorem exec_pc_stack {i : Instr} {s t : State} (h : exec i s = .next t) :
    (t.stack = s.stack ∧ (t.pc = s.pc ∨ t.pc = s.pc + 2 ∨ t.pc.toNat ≤ 0x10FE)) ∨
      (s.params.stackDepth ≠ some s.stack.length ∧ t.stack = s.pc :: s.stack ∧ t.pc.toNat ≤ 0xFFF) ∨
      s.stack = t.pc :: t.stack := by
  have skip (c : Bool) : (s.skipIf c).pc = s.pc ∨ (s.skipIf c).pc = s.pc + 2 := by cases c <;> simp
  cases i with
  | ret =>
    cases hs : s.stack with
    | nil => cases (exec_ret_of_stack_nil hs).symm.trans h; exact .inl ⟨hs, .inl rfl⟩
    | cons a rest => cases (exec_ret_of_stack_cons hs).symm.trans h; exact .inr (.inr rfl)
  | call nnn =>
    have hnnn := zext16_toNat nnn
    have hlt := nnn.isLt
    by_cases hd : s.params.stackDepth = some s.stack.length
    · cases (exec_call_of_full hd).symm.trans h; exact .inl ⟨rfl, .inl rfl⟩
    · cases (exec_call_of_room hd).symm.trans h; exact .inr (.inl ⟨hd, rfl, by simp only; omega⟩)
  | jump nnn =>
    have hnnn := zext16_toNat nnn
    have hlt := nnn.isLt
    cases h; exact .inl ⟨rfl, .inr (.inr (by simp only; omega))⟩
  | jumpOffset nnn =>
    have hsum := offsetTarget_toNat nnn (s.reg 0x0)
    have hlt := nnn.isLt
    have hlt' := (s.reg 0x0).isLt
    cases h; exact .inl ⟨rfl, .inr (.inr (by simp only; omega))⟩
  | skipEqImm | skipNeImm | skipEqReg | skipNeReg =>
    cases h; exact .inl ⟨State.skipIf_stack _ s, (skip _).imp_right .inl⟩
  | _ =>
    exact .inl ⟨exec_agrees h .stack (by simp [Instr.mayChange]) (by simp),
      .inl (exec_agrees h .pc (by simp [Instr.mayChange]) (by simp))⟩

end Sys2Proof.Machine
end

section
/-! Proofs of the invariants of the whole machine: what every step keeps (10_state.md, 60_exceptions.md). -/

namespace Sys2Proof.Machine

/-! ### The moves of the agents other than the engine -/

/-- `t` is `s` after a move of the ticker or of the host (10_state.md R51). -/
def otherAgentMoves (s t : State) : Prop := t = s.tick ∨ t = s.start ∨ t = s.halt ∨ ∃ e, t = s.offerKey e

theorem State.replaceSchedule_of_nil {s : State} (h : s.schedule = []) : { s with schedule := [] } = s := by
  cases s; cases h; rfl

/-- Whose move a step was; either way it is made on the state with a shorter schedule. -/
theorem step_engine_or_other {s t : State} (h : step s = .next t) :
    ∃ ts, engineStep { s with schedule := ts } = .next t ∨ otherAgentMoves { s with schedule := ts } t := by
  obtain ⟨hnil, h⟩ | ⟨u, ts, -, h⟩ := step_cases h
  · exact ⟨[], .inl ((State.replaceSchedule_of_nil hnil).symm ▸ h)⟩
  · obtain ⟨-, h⟩ | ⟨-, h⟩ | ⟨-, h⟩ | ⟨-, h⟩ | ⟨e, -, h⟩ := h
    · exact ⟨ts, .inl h⟩
    · exact ⟨ts, .inr (.inl h)⟩
    · exact ⟨ts, .inr (.inr (.inl h))⟩
    · exact ⟨ts, .inr (.inr (.inr (.inl h)))⟩
    · exact ⟨ts, .inr (.inr (.inr (.inr ⟨e, h⟩)))⟩

theorem otherAgentMoves.mem_eq {s t : State} (h : otherAgentMoves s t) : t.mem = s.mem := by
  rcases h with rfl | rfl | rfl | ⟨e, rfl⟩
  · unfold State.tick; split <;> rfl
  · unfold State.start; split <;> rfl
  · unfold State.halt; split <;> rfl
  · rfl

theorem otherAgentMoves.frame {s t : State} (h : otherAgentMoves s t) :
    onlyChanges (fun p => p = .delay ∨ p = .sound ∨ p = .run ∨ p = .keys) s t := by
  rcases h with rfl | rfl | rfl | ⟨e, rfl⟩
  · exact s.tick_onlyChanges.mono fun _ => Or.imp_right .inl
  · exact s.start_onlyChanges.mono fun _ hp => .inr (.inr (.inl hp))
  · exact s.halt_onlyChanges.mono fun _ hp => .inr (.inr (.inl hp))
  · exact (s.offerKey_onlyChanges e).mono fun _ hp => .inr (.inr (.inr hp))

theorem State.tick_of_not_running {s : State} (h : s.run.isRunning = false) : s.tick = s := by
  simp [State.tick, h]

theorem State.halt_of_not_running {s : State} (h : s.run.isRunning = false) : s.halt = s := by
  simp [State.halt, h]

theorem State.start_of_not_initial {s : State} (h : s.run ≠ .stoppedInitial) : s.start = s := by
  unfold State.start
  split
  · next hr => exact absurd hr h
  all_goals rfl

/-- After the end of a run the ticker and the host only fill the queue of key events. -/
theorem otherAgentMoves.frame_of_final {s t : State} (h : otherAgentMoves s t) (hs : s.run = .stoppedFinal) :
    onlyChanges (· = .keys) s t := by
  have hnot : s.run.isRunning = false := by rw [hs]; rfl
  rcases h with rfl | rfl | rfl | ⟨e, rfl⟩
  · rw [State.tick_of_not_running hnot]; exact onlyChanges.refl _ s
  · rw [State.start_of_not_initial (by simp [hs])]; exact onlyChanges.refl _ s
  · rw [State.halt_of_not_running hnot]; exact onlyChanges.refl _ s
  · exact s.offerKey_onlyChanges e

/-! ### Memory -/

theorem State.memCanonical_of_eq {s t : State} (hmem : t.mem = s.mem) (hparams : t.params = s.params)
    (hs : s.memCanonical) : t.memCanonical := by
  unfold State.memCanonical
  rwa [hmem, hparams]

theorem exec_memCanonical {i : Instr} {s t : State} (h : exec i s = .next t) (hs : s.memCanonical) :
    t.memCanonical := by
  rcases exec_mem h with hmem | ⟨bs, hbs, hmem⟩
  · exact State.memCanonical_of_eq hmem (exec_params h) hs
  · unfold State.memCanonical
    rw [exec_params h, hmem]
    exact Memory.writeBytes_wf hs hbs

theorem engineStep_memCanonical {s t : State} (h : engineStep s = .next t) : s.memCanonical → t.memCanonical :=
  engineStep_induct (P := fun s t => s.memCanonical → t.memCanonical)
    (fun _ _ _ _ _ _ hexec hs => exec_memCanonical hexec hs) (fun _ _ _ _ _ hs => hs) (fun _ _ _ _ _ _ hs => hs) s t h

/-- Settles O51: only the engine stores bytes, and an instruction stores inside memory alone. -/
theorem stepKeepsMemoryCanonical : Obligations.StepKeepsMemoryCanonical := by
  intro s t hs h
  obtain ⟨ts, h | h⟩ := step_engine_or_other h
  · exact engineStep_memCanonical h hs
  · exact State.memCanonical_of_eq h.mem_eq (h.frame .params (by simp)) hs

/-! ### The program counter and the stack -/

theorem State.pc_add_two_toNat {s : State} (h : s.pc.toNat ≤ 0x1000) : (s.pc + 2).toNat = s.pc.toNat + 2 := by
  rw [BitVec.toNat_add]
  simp only [BitVec.reduceToNat]
  omega

/-- An instruction fetched inside memory: the return address it may push is at most 0x1000. -/
theorem exec_pcBounded {i : Instr} {s t : State} (h : exec i s = .next t) (hpc : s.pc.toNat ≤ 0x1000)
    (hsaved : ∀ a ∈ s.stack, a.toNat ≤ 0x1000) : t.pcBounded := by
  rcases exec_pc_stack h with ⟨hstack, hpc' | hpc' | hpc'⟩ | ⟨-, hstack, hpc'⟩ | hstack
  · exact ⟨by rw [hpc']; omega, hstack ▸ hsaved⟩
  · exact ⟨by rw [hpc', State.pc_add_two_toNat hpc]; omega, hstack ▸ hsaved⟩
  · exact ⟨hpc', hstack ▸ hsaved⟩
  · exact ⟨by omega, hstack ▸ List.forall_mem_cons.2 ⟨hpc, hsaved⟩⟩
  · rw [hstack, List.forall_mem_cons] at hsaved
    exact ⟨by omega, hsaved.2⟩

theorem engineStep_pcBounded {s t : State} (h : engineStep s = .next t) :
    s.pcBounded → t.fault = none → t.pcBounded := by
  refine engineStep_induct (P := fun s t => s.pcBounded → t.fault = none → t.pcBounded) ?_ ?_ ?_ s t h
  · intro s t i _ _ hpc hexec ⟨_, hsaved⟩ _
    have hpc' : (s.pc + 2).toNat ≤ 0x1000 := by rw [State.pc_add_two_toNat (by omega)]; omega
    exact exec_pcBounded hexec hpc' hsaved
  · intro s r ks p _ _ hfault
    simp at hfault
  · exact fun _ _ _ _ _ _ hs _ => hs

/-- Settles O52: the engine's step keeps the bounds and no other agent writes `pc` or the stack. -/
theorem stepKeepsThePcBounded : Obligations.StepKeepsThePcBounded := by
  intro s t hs h hfault
  obtain ⟨ts, h | h⟩ := step_engine_or_other h
  · exact engineStep_pcBounded h hs hfault
  · have hpc : t.pc = s.pc := h.frame .pc (by simp)
    have hstack : t.stack = s.stack := h.frame .stack (by simp)
    unfold State.pcBounded
    rwa [hpc, hstack]

/-- A call finds room, so that its push stays within the depth. -/
theorem exec_stackWithinDepth {i : Instr} {s t : State} (h : exec i s = .next t) (hs : s.stackWithinDepth) :
    t.stackWithinDepth := by
  intro d hd
  rw [exec_params h] at hd
  have hlen := hs d hd
  rcases exec_pc_stack h with ⟨hstack, -⟩ | ⟨hroom, hstack, -⟩ | hstack
  · rwa [hstack]
  · have hne : s.stack.length ≠ d := fun heq => hroom (heq ▸ hd)
    rw [hstack, List.length_cons]
    omega
  · rw [hstack, List.length_cons] at hlen
    omega

theorem engineStep_stackWithinDepth {s t : State} (h : engineStep s = .next t) :
    s.stackWithinDepth → t.stackWithinDepth :=
  engineStep_induct (P := fun s t => s.stackWithinDepth → t.stackWithinDepth)
    (fun _ _ _ _ _ _ hexec hs => exec_stackWithinDepth hexec hs) (fun _ _ _ _ _ hs => hs)
    (fun _ _ _ _ _ _ hs => hs) s t h

/-- Settles O53: a push happens only where there is room, so the bound holds whether a fault is recorded or not. -/
theorem stepKeepsTheStackWithinDepth : Obligations.StepKeepsTheStackWithinDepth := by
  intro s t hs h _
  obtain ⟨ts, h | h⟩ := step_engine_or_other h
  · exact engineStep_stackWithinDepth h hs
  · have hparams : t.params = s.params := h.frame .params (by simp)
    have hstack : t.stack = s.stack := h.frame .stack (by simp)
    unfold State.stackWithinDepth
    rwa [hparams, hstack]

/-! ### The run state, the fault record and the parameters -/

/-- An instruction of a running engine leaves it running or waiting, or takes a fatal error. -/
theorem exec_run {i : Instr} {s t : State} (h : exec i s = .next t) (hs : s.run.isRunning = true)
    (hfault : s.fault = none) :
    (t.run.isRunning = true ∧ t.fault = none) ∨ (t.run = .stoppedFinal ∧ t.fault.isSome = true) := by
  rcases exec_frame i s t h with hframe | ⟨r, rfl⟩
  · have hkept : t.fault = s.fault := hframe .fault (by cases i <;> simp [Instr.mayChange])
    refine .inl ⟨?_, hkept.trans hfault⟩
    cases i with
    | blockForKey x => cases h; rfl
    | _ =>
      have hrun : t.run = s.run := hframe .run (by simp [Instr.mayChange])
      rwa [hrun]
  · exact .inr ⟨rfl, rfl⟩

/-- The engine moves only while it runs or waits with no fault recorded, and so it stays unless it takes a fatal
error. -/
theorem engineStep_run {s t : State} (h : engineStep s = .next t) :
    s.run.isRunning = true ∧ s.fault = none ∧
      ((t.run.isRunning = true ∧ t.fault = none) ∨ (t.run = .stoppedFinal ∧ t.fault.isSome = true)) := by
  obtain ⟨hfault, hmove⟩ := engineStep_cases h
  have hrun : s.run.isRunning = true := by
    rcases hmove with ⟨x, hrun, -⟩ | ⟨hrun, -⟩ <;> rw [hrun] <;> rfl
  refine ⟨hrun, hfault, ?_⟩
  refine engineStep_induct (P := fun s t => (t.run.isRunning = true ∧ t.fault = none) ∨
    (t.run = .stoppedFinal ∧ t.fault.isSome = true)) ?_ ?_ ?_ s t h
  · intro s t i hfault hrun _ hexec
    exact exec_run hexec (by simp only [hrun, RunState.isRunning]) hfault
  · exact fun _ _ _ _ _ => .inr ⟨rfl, rfl⟩
  · exact fun _ _ _ _ hfault _ => .inl ⟨rfl, hfault⟩

/-- Settles O54: the engine's fatal error stops it, and no other agent sets a record or leaves the final
`Stopped`. -/
theorem stepKeepsFaultMeansStopped : Obligations.StepKeepsFaultMeansStopped := by
  intro s t hs h hsome
  obtain ⟨ts, h | h⟩ := step_engine_or_other h
  · obtain ⟨-, -, ⟨-, hnone⟩ | ⟨hstopped, -⟩⟩ := engineStep_run h
    · simp [hnone] at hsome
    · exact hstopped
  · have hfault : t.fault = s.fault := h.frame .fault (by simp)
    have hstopped : s.run = .stoppedFinal := hs (hfault ▸ hsome)
    have hrun : t.run = s.run := h.frame_of_final hstopped .run (by simp)
    exact hrun.trans hstopped

/-- Settles O55: with a record set the engine has no step, and no other agent writes the record. -/
theorem faultRecordIsNeverCleared : Obligations.FaultRecordIsNeverCleared := by
  intro s t r hs h
  obtain ⟨ts, h | h⟩ := step_engine_or_other h
  · obtain ⟨-, hnone, -⟩ := engineStep_run h
    simp [hs] at hnone
  · exact (h.frame .fault (by simp)).trans hs

/-- Settles O56: nothing is stored, nothing is saved and no record is set at reset. -/
theorem resetMeetsTheInvariants : Obligations.ResetMeetsTheInvariants := by
  refine ⟨by decide, ⟨by decide, List.forall_mem_nil _⟩, fun d _ => Nat.zero_le d, fun h => ?_⟩
  simp [State.reset] at h

@[simp] theorem State.tick_run (s : State) : s.tick.run = s.run := s.tick_onlyChanges .run (by simp)

theorem State.start_run (s : State) : s.start.run = if s.run = .stoppedInitial then .running else s.run := by
  unfold State.start
  split <;> simp_all

theorem State.halt_run (s : State) : s.halt.run = if s.run.isRunning = true then .stoppedFinal else s.run := by
  unfold State.halt
  split <;> rfl

/-- What a step does to the run state, agent by agent. -/
theorem step_run {s t : State} (h : step s = .next t) :
    (∃ ts, engineStep { s with schedule := ts } = .next t) ∨ t.run = s.run ∨
      ((∃ ts, s.schedule = .start :: ts) ∧ t.run = if s.run = .stoppedInitial then .running else s.run) ∨
      ((∃ ts, s.schedule = .halt :: ts) ∧ t.run = if s.run.isRunning = true then .stoppedFinal else s.run) := by
  obtain ⟨hnil, h⟩ | ⟨u, ts, hcons, h⟩ := step_cases h
  · exact .inl ⟨[], (State.replaceSchedule_of_nil hnil).symm ▸ h⟩
  · obtain ⟨-, h⟩ | ⟨-, rfl⟩ | ⟨rfl, rfl⟩ | ⟨rfl, rfl⟩ | ⟨e, -, rfl⟩ := h
    · exact .inl ⟨ts, h⟩
    · exact .inr (.inl (State.tick_run _))
    · exact .inr (.inr (.inl ⟨⟨ts, hcons⟩, State.start_run _⟩))
    · exact .inr (.inr (.inr ⟨⟨ts, hcons⟩, State.halt_run _⟩))
    · exact .inr (.inl rfl)

/-- Settles O57: the three clauses for each agent's effect on the run state. -/
theorem runStateTransitions : Obligations.RunStateTransitions := by
  intro s t h
  rcases step_run h with ⟨ts, h⟩ | hkept | ⟨hs, hrun⟩ | ⟨hs, hrun⟩
  · obtain ⟨hrunning, -, hafter⟩ := engineStep_run h
    refine ⟨fun hinitial => ?_, fun _ => hafter.imp And.left (And.imp_right .inr), fun hfinal => ?_⟩
    · simp [hinitial, RunState.isRunning] at hrunning
    · simp [hfinal, RunState.isRunning] at hrunning
  · rw [hkept]
    exact ⟨.inl, .inl, id⟩
  · cases hr : s.run <;> simp [hrun, hr, hs, RunState.isRunning]
  · cases hr : s.run <;> simp [hrun, hr, hs, RunState.isRunning]

theorem State.replaceSchedule_onlyChanges (ts : List Turn) (s : State) :
    onlyChanges (· = .schedule) s { s with schedule := ts } := by
  intro p hp
  cases p with
  | schedule => exact absurd rfl hp
  | _ => rfl

/-- Settles O58: the engine has no step, and of the other agents' moves only a key's has an effect. -/
theorem nothingChangesAfterAHalt : Obligations.NothingChangesAfterAHalt := by
  intro s t ⟨hrun, _⟩ h
  obtain ⟨ts, h | h⟩ := step_engine_or_other h
  · obtain ⟨hrunning, -⟩ := engineStep_run h
    simp [hrun, RunState.isRunning] at hrunning
  · exact ((s.replaceSchedule_onlyChanges ts).mono fun _ => Or.inl).trans
      ((h.frame_of_final hrun).mono fun _ => Or.inr)

theorem engineStep_params {s t : State} (h : engineStep s = .next t) : t.params = s.params :=
  engineStep_induct (P := fun s t => t.params = s.params) (fun _ _ _ _ _ _ hexec => (exec_params hexec :))
    (fun _ _ _ _ _ => rfl) (fun _ _ _ _ _ _ => rfl) s t h

/-- Settles O59: no instruction and no other agent writes the parameters. -/
theorem stepKeepsTheParameters : Obligations.StepKeepsTheParameters := by
  intro s t h
  obtain ⟨ts, h | h⟩ := step_engine_or_other h
  · exact (engineStep_params h :)
  · exact h.frame .params (by simp)

end Sys2Proof.Machine
end

section
/-! Proofs about fetch and the engine's step (30_encoding.md section 5), the completion of a key wait included
(44_timers_keys.md section 2). -/

namespace Sys2Proof.Machine

/-! ### Fetch -/

theorem State.fetch_of_inBounds {s : State} (h : s.pc.toNat + 1 ≤ 0xFFF) :
    s.fetch = some (s.wordAtPc, { s with pc := s.pc + 2 }) :=
  if_neg (Nat.not_lt.2 h)

theorem fetchExecute_of_outOfBounds {s : State} (h : 0xFFF < s.pc.toNat + 1) :
    fetchExecute s = .next (s.fatal { kind := .fetchOutOfBounds, addr := s.pc, word := none, dataAddr := none }) := by
  rw [fetchExecute_eq, if_pos h]

theorem fetchExecute_of_invalid {s : State} (h : s.pc.toNat + 1 ≤ 0xFFF) (hd : decodeWord s.wordAtPc = none) :
    fetchExecute s = .next (State.fatal { kind := .invalidOpcode, addr := s.pc, word := some s.wordAtPc, dataAddr := none }
      { s with pc := s.pc + 2 }) := by
  rw [fetchExecute_eq, if_neg (Nat.not_lt.2 h), hd]

theorem fetchExecute_of_decode {s : State} {i : Instr} (h : s.pc.toNat + 1 ≤ 0xFFF)
    (hd : decodeWord s.wordAtPc = some i) : fetchExecute s = exec i { s with pc := s.pc + 2 } := by
  rw [fetchExecute_eq, if_neg (Nat.not_lt.2 h), hd]

/-! ### The engine's step, run state by run state -/

theorem engineStep_of_running {s : State} (hr : s.run = .running) (hf : s.fault = none) :
    engineStep s = fetchExecute s := by
  simp [engineStep, hr, hf]

theorem engineStep_of_waitKey {x : Nibble} {s : State} (hr : s.run = .waitKey x) (hf : s.fault = none) :
    engineStep s = completeKeyWait x s := by
  simp [engineStep, hr, hf]

theorem engineStep_of_stoppedInitial {s : State} (hr : s.run = .stoppedInitial) (hf : s.fault = none) :
    engineStep s = .fault .notStarted := by
  simp [engineStep, hr, hf]

theorem engineStep_of_stoppedFinal {s : State} (hr : s.run = .stoppedFinal) : engineStep s = .fault .runEnded := by
  simp [engineStep, hr]

theorem step_of_readyToFetch {s : State} (h : s.readyToFetch) :
    step s = fetchExecute { s with schedule := s.schedule.tail } := by
  obtain ⟨hr, hf, hmove⟩ := h
  rw [step_of_engineMovesNext hmove]
  exact engineStep_of_running hr hf

/-- Settles O7: the word is its two bytes appended. -/
theorem fetchedWordIsBigEndian : Obligations.FetchedWordIsBigEndian := fun _ h =>
  ⟨_, _, State.fetch_of_inBounds h, wordOfBytes_toNat _ _⟩

/-- Settles O8: the two sides of the fetch bound. -/
theorem fetchAdvancesOrStops : Obligations.FetchAdvancesOrStops := by
  refine fun s => ⟨fun h => ?_, fun h hready => ?_⟩
  · exact ⟨_, State.fetch_of_inBounds h, State.pc_add_two_toNat (by omega), State.replacePc_onlyChanges _ s⟩
  · refine ⟨_, (step_of_readyToFetch hready).trans (fetchExecute_of_outOfBounds h), ?_⟩
    exact ⟨State.fatal_run _ _, State.fatal_fault _ _⟩

/-- Settles O9: with either form of the engine's turn the step is the engine's, which fetches inside memory. -/
theorem stepRunsTheDecodedInstruction : Obligations.StepRunsTheDecodedInstruction := by
  intro s i hr hf hpc hd
  refine ⟨fun hs => ?_, fun ts hs => ?_⟩
  · rw [step_of_schedule_nil hs, engineStep_of_running hr hf, fetchExecute_of_decode hpc hd]
  · have hstep := (step_of_schedule_cons hs).trans (engineStep_of_running hr hf)
    exact hstep.trans (fetchExecute_of_decode hpc hd)

/-- Settles O10: inside the fetch bound the decode fails and the engine takes the fatal error. -/
theorem invalidWordStopsTheEngine : Obligations.InvalidWordStopsTheEngine := by
  intro s hready hpc hd
  refine ⟨_, (step_of_readyToFetch hready).trans (fetchExecute_of_invalid hpc hd), ?_⟩
  exact ⟨State.fatal_run _ _, State.fatal_fault _ _⟩

/-! ### The key wait -/

theorem completeKeyWait_of_nil {x : Nibble} {s : State} (h : s.keys = []) :
    completeKeyWait x s = .fault .waitingForKey := by
  simp only [completeKeyWait, h]

theorem completeKeyWait_of_key {x k : Nibble} {ks : List KeyEvent} {s : State} (h : s.keys = .key k :: ks) :
    completeKeyWait x s = .next (State.setReg x (k.setWidth 8) { s with run := .running, keys := ks }) := by
  simp only [completeKeyWait, h]

theorem completeKeyWait_of_closed {x : Nibble} {ks : List KeyEvent} {s : State} (h : s.keys = .closed :: ks) :
    completeKeyWait x s = .next (State.fatalIn (.blockForKey x) .keySourceClosed none { s with keys := ks }) := by
  simp only [completeKeyWait, h]

/-- Settles O11: the run states in which the engine has no step. -/
theorem engineWithoutAStepIsStuck : Obligations.EngineWithoutAStepIsStuck := by
  intro s hmove
  have hstep := step_of_engineMovesNext hmove
  refine ⟨fun hr => ?_, fun hf hr => ?_, fun x hf hr hk => ?_⟩
  · exact hstep.trans (engineStep_of_stoppedFinal hr)
  · exact hstep.trans (engineStep_of_stoppedInitial hr hf)
  · exact (hstep.trans (engineStep_of_waitKey hr hf)).trans (completeKeyWait_of_nil hk)

theorem State.replaceRun_onlyChanges (r : RunState) (s : State) : onlyChanges (· = .run) s { s with run := r } := by
  intro p hp
  cases p with
  | run => exact absurd rfl hp
  | _ => rfl

theorem State.replaceKeys_onlyChanges (ks : List KeyEvent) (s : State) :
    onlyChanges (· = .keys) s { s with keys := ks } := by
  intro p hp
  cases p with
  | keys => exact absurd rfl hp
  | _ => rfl

/-- The frame of a key delivered to a wait for register `x`, the engine's entry of the schedule consumed. -/
theorem keyDelivered_onlyChanges (x : Nibble) (b : Byte) (r : RunState) (ks : List KeyEvent) (ts : List Turn)
    (s : State) :
    onlyChanges (fun p => p = .reg x ∨ p = .run ∨ p = .keys ∨ p = .schedule) s
      (State.setReg x b { s with run := r, keys := ks, schedule := ts }) := by
  refine .trans ?_ (((State.setReg_onlyChanges x b _)).mono fun _ => Or.inl)
  refine .trans ((s.replaceSchedule_onlyChanges ts).mono fun _ h => .inr (.inr (.inr h))) ?_
  refine .trans ((State.replaceKeys_onlyChanges ks _).mono fun _ h => .inr (.inr (.inl h))) ?_
  exact (State.replaceRun_onlyChanges r _).mono fun _ h => .inr (.inl h)

theorem encode_blockForKey (x : Nibble) : encode (.blockForKey x) = (0xF00A : Word) ||| (x.setWidth 16 <<< 8) := by
  revert x
  decide

/-- Settles O45: the two events a wait can take. -/
theorem keyEventEndsTheWait : Obligations.KeyEventEndsTheWait := by
  intro x s hr hf hmove
  have hstep := (step_of_engineMovesNext hmove).trans (engineStep_of_waitKey hr hf)
  refine ⟨fun k ks hk => ?_, fun ks hk => ?_⟩
  · refine ⟨_, hstep.trans (completeKeyWait_of_key hk), ?_, rfl, rfl, rfl, keyDelivered_onlyChanges _ _ _ _ _ _⟩
    rw [State.reg_setReg_self, BitVec.toNat_setWidth_of_le (by decide)]
  · rw [← encode_blockForKey]
    exact ⟨_, hstep.trans (completeKeyWait_of_closed hk), State.fatalIn_stopsWith _ _ _ _⟩

end Sys2Proof.Machine
end

section
/-! Proofs about the ticker and the host (60_exceptions.md sections 4 and 5). -/

namespace Sys2Proof.Machine

/-! ### The ticker -/

theorem tickCounter_toNat (t : Byte) : (tickCounter t).toNat = t.toNat - 1 := by
  unfold tickCounter
  split
  · next h => simp [h]
  · next h =>
    have hpos : (1 : Byte) ≤ t := by
      rw [BitVec.le_def]
      by_contra hlt
      exact h (BitVec.eq_of_toNat_eq (by simpa using hlt))
    exact BitVec.toNat_sub_of_le hpos

theorem State.tick_counters_toNat {s : State} (h : s.run.isRunning = true) :
    s.tick.DT.toNat = s.DT.toNat - 1 ∧ s.tick.ST.toNat = s.ST.toNat - 1 := by
  simp only [State.tick, if_pos h, tickCounter_toNat, and_self]

/-- A scheduled tick. -/
theorem step_tick {s : State} {ts : List Turn} (h : s.schedule = .tick :: ts) :
    step s = .next (State.tick { s with schedule := ts }) :=
  step_of_schedule_cons h

theorem scheduledTick_onlyChanges (s : State) (ts : List Turn) :
    onlyChanges (fun p => p = .schedule ∨ p = .delay ∨ p = .sound) s (State.tick { s with schedule := ts }) :=
  ((s.replaceSchedule_onlyChanges ts).mono fun _ => Or.inl).trans ((State.tick_onlyChanges _).mono fun _ => Or.inr)

theorem State.tick_schedule (s : State) : s.tick.schedule = s.schedule := s.tick_onlyChanges .schedule (by simp)

/-- Settles O46: a tick decrements while the engine runs or waits and has no effect otherwise. -/
theorem tickDecrementsBothCounters : Obligations.TickDecrementsBothCounters := by
  intro s ts h
  refine ⟨_, step_tick h, State.tick_schedule _, fun hr => ?_, fun hr => ?_, scheduledTick_onlyChanges s ts⟩
  · exact State.tick_counters_toNat (s := { s with schedule := ts }) hr
  · have hsame : State.tick { s with schedule := ts } = { s with schedule := ts } := State.tick_of_not_running hr
    rw [hsame]
    exact ⟨rfl, rfl⟩

theorem core_run_succ {s t : State} (h : step s = .next t) (k : Nat) :
    Host.Core.run Sys2Proof.core (k + 1) s = Host.Core.run Sys2Proof.core k t := by
  have hstep : Sys2Proof.core.step s = .next t := h
  simp only [Host.Core.run, hstep]

/-- Settles O47, by induction on the number of ticks: one tick keeps the engine running or waiting. -/
theorem ticksReachZeroAndStay : Obligations.TicksReachZeroAndStay := by
  intro k
  induction k with
  | zero => exact fun s ts _ hs => ⟨s, rfl, hs, rfl, rfl, onlyChanges.refl _ s⟩
  | succ k ih =>
    intro s ts hr hs
    obtain ⟨hDT, hST⟩ := State.tick_counters_toNat (s := { s with schedule := List.replicate k .tick ++ ts }) hr
    obtain ⟨t, hrun, hts, hDT', hST', hframe⟩ :=
      ih (State.tick { s with schedule := List.replicate k .tick ++ ts }) ts (by rwa [State.tick_run])
        (State.tick_schedule _)
    refine ⟨t, (core_run_succ (step_tick hs) k).trans hrun, hts, ?_, ?_, (scheduledTick_onlyChanges s _).trans hframe⟩
    · rw [hDT', hDT]; simp only; omega
    · rw [hST', hST]; simp only; omega

/-! ### The host -/

/-- Settles O48: a start and a halt change the run state alone. -/
theorem startAndHaltMoveTheRunState : Obligations.StartAndHaltMoveTheRunState := by
  intro s ts
  have hframe : onlyChanges (fun p => p = .schedule ∨ p = .run) s { s with schedule := ts } :=
    (s.replaceSchedule_onlyChanges ts).mono fun _ => Or.inl
  refine ⟨fun h => ⟨_, step_of_schedule_cons h, ?_, State.start_run _, ?_⟩,
    fun h => ⟨_, step_of_schedule_cons h, ?_, State.halt_run _, ?_⟩⟩
  · exact State.start_onlyChanges _ .schedule (by simp)
  · exact hframe.trans ((State.start_onlyChanges _).mono fun _ => Or.inr)
  · exact State.halt_onlyChanges _ .schedule (by simp)
  · exact hframe.trans ((State.halt_onlyChanges _).mono fun _ => Or.inr)

/-- Settles O60: the move is `State.offerKey` on the state with the rest of the schedule. -/
theorem keyMoveAppendsTheEvent : Obligations.KeyMoveAppendsTheEvent := by
  intro s e ts h
  refine ⟨_, step_of_schedule_cons h, State.offerKey_keys e _, State.offerKey_schedule e _, ?_⟩
  exact ((s.replaceSchedule_onlyChanges ts).mono fun _ => Or.inl).trans
    ((State.offerKey_onlyChanges e _).mono fun _ => Or.inr)

end Sys2Proof.Machine
end

section
/-! Proofs of the timer and key instructions that remain (44_timers_keys.md), and of which instructions write
which part of the state (10_state.md). -/

namespace Sys2Proof.Machine

theorem exec_readDelay (x : Nibble) (s : State) : exec (.readDelay x) s = .next (s.setReg x s.DT) := rfl

theorem exec_blockForKey (x : Nibble) (s : State) : exec (.blockForKey x) s = .next { s with run := .waitKey x } := rfl

/-- Settles O42: one register write. -/
theorem readDelayReadsTheCounter : Obligations.ReadDelayReadsTheCounter := fun x s =>
  ⟨(Instr.readDelay x).fitsXF_of_encode rfl rfl, writesOneRegister_of_exec (exec_readDelay x s)⟩

/-- Settles O44: the first step replaces the run state. -/
theorem blockForKeyWaits : Obligations.BlockForKeyWaits := fun x s =>
  ⟨(Instr.blockForKey x).fitsXF_of_encode rfl rfl, _, exec_blockForKey x s, rfl, State.replaceRun_onlyChanges _ s⟩

/-! ### Which instructions write a part -/

variable {i : Instr}

theorem Instr.not_mayChange_index (hload : ∀ nnn, i ≠ .loadIndex nnn) (hadd : ∀ x, i ≠ .addToIndex x) :
    ¬ Instr.mayChange i .index := by
  cases i <;> simp_all [Instr.mayChange]

theorem Instr.not_mayChange_byte (hbcd : ∀ x, i ≠ .bcd x) (hstore : ∀ x, i ≠ .storeRegs x) (a : Nat) :
    ¬ Instr.mayChange i (.byte a) := by
  cases i <;> simp_all [Instr.mayChange]

theorem Instr.not_mayChange_stack (hret : i ≠ .ret) (hcall : ∀ nnn, i ≠ .call nnn) :
    ¬ Instr.mayChange i .stack := by
  cases i <;> simp_all [Instr.mayChange]

theorem Instr.not_mayChange_display (hclear : i ≠ .clear) (hdraw : ∀ x y n, i ≠ .drawSprite x y n) :
    ¬ Instr.mayChange i .frames ∧ ∀ c r, ¬ Instr.mayChange i (.pixel c r) := by
  cases i <;> simp_all [Instr.mayChange]

theorem Instr.not_mayChange_delay (h : ∀ x, i ≠ .setDelay x) : ¬ Instr.mayChange i .delay := by
  cases i <;> simp_all [Instr.mayChange]

theorem Instr.not_mayChange_sound (h : ∀ x, i ≠ .setSound x) : ¬ Instr.mayChange i .sound := by
  cases i <;> simp_all [Instr.mayChange]

/-- Settles O15: pixels and frames are parts of `clear` and `draw-sprite` alone. -/
theorem onlyClearAndDrawTouchTheDisplay : Obligations.OnlyClearAndDrawTouchTheDisplay := by
  intro i s t h _ _ hclear hdraw
  obtain ⟨hframes, hpixel⟩ := Instr.not_mayChange_display hclear hdraw
  exact ⟨exec_agrees h .frames hframes (by simp), fun c r => exec_agrees h (.pixel c r) (hpixel c r) (by simp)⟩

/-- Settles O38: `I` is a part of load-index and add-to-index alone. -/
theorem onlyIndexInstructionsWriteI : Obligations.OnlyIndexInstructionsWriteI :=
  fun _ _ _ h _ _ hload hadd => exec_agrees h .index (Instr.not_mayChange_index hload hadd) (by simp)

/-- Settles O39: a byte of memory is a part of bcd and store-regs alone. -/
theorem onlyBcdAndStoreRegsWriteMemory : Obligations.OnlyBcdAndStoreRegsWriteMemory :=
  fun _ _ _ h _ _ hbcd hstore a => exec_agrees h (.byte a) (Instr.not_mayChange_byte hbcd hstore a) (by simp)

/-- Settles O40: the stack is a part of call and return alone. -/
theorem onlyCallAndReturnChangeTheStack : Obligations.OnlyCallAndReturnChangeTheStack :=
  fun _ _ _ h _ _ hret hcall => exec_agrees h .stack (Instr.not_mayChange_stack hret hcall) (by simp)

/-! ### No instruction reads the sound timer -/

theorem State.writeFlagged_withST (d : Nibble) (r : Byte × Bool) (v : Byte) (s : State) :
    State.writeFlagged d r { s with ST := v } = { s.writeFlagged d r with ST := v } := by
  unfold State.writeFlagged
  cases s.params.flagWriteOrder <;> rfl

theorem State.skipIf_withST (c : Bool) (v : Byte) (s : State) :
    State.skipIf c { s with ST := v } = { s.skipIf c with ST := v } := by
  cases c <;> rfl

theorem State.loadRegsFrom_withST (a n : Nat) (v : Byte) (s : State) :
    State.loadRegsFrom a n { s with ST := v } = { s.loadRegsFrom a n with ST := v } := by
  induction n with
  | zero => rfl
  | succ n ih => rw [State.loadRegsFrom, ih]; rfl

/-- The sound timer's value goes through an instruction unread: it is still there afterwards, or the instruction
was set-sound, whose result does not depend on it. -/
theorem exec_withST {s t : State} (h : exec i s = .next t) (v : Byte) :
    exec i { s with ST := v } = .next { t with ST := v } ∨ exec i { s with ST := v } = .next t := by
  cases i with
  | setSound x => cases h; exact .inr rfl
  | ret =>
    by_cases hs : s.stack = []
    · cases (exec_ret_of_stack_nil hs).symm.trans h; exact .inl (exec_ret_of_stack_nil hs)
    · obtain ⟨a, rest, hs⟩ := List.exists_cons_of_ne_nil hs
      cases (exec_ret_of_stack_cons hs).symm.trans h; exact .inl (exec_ret_of_stack_cons hs)
  | call =>
    by_cases hd : s.params.stackDepth = some s.stack.length
    · cases (exec_call_of_full hd).symm.trans h; exact .inl (exec_call_of_full hd)
    · cases (exec_call_of_room hd).symm.trans h; exact .inl (exec_call_of_room hd)
  | drawSprite _ _ n =>
    cases hc : checkData s.I n.toNat <;> simp only [exec, execDrawSprite, hc] at h ⊢ <;> cases h <;> exact .inl rfl
  | bcd => cases hc : checkData s.I 3 <;> simp only [exec, execBcd, hc] at h ⊢ <;> cases h <;> exact .inl rfl
  | storeRegs x =>
    cases hc : checkData s.I (regCount x) <;> simp only [exec, execStoreRegs, hc] at h ⊢ <;> cases h <;> exact .inl rfl
  | loadRegs x =>
    cases hc : checkData s.I (regCount x) <;> simp only [exec, execLoadRegs, hc] at h ⊢ <;> cases h
    · exact .inl (congrArg Host.Outcome.next (State.loadRegsFrom_withST _ _ v s))
    · exact .inl rfl
  | addToIndex =>
    cases hp : s.params.indexOverflowVf <;> simp only [exec, execAddToIndex, hp] at h ⊢ <;> cases h <;> exact .inl rfl
  | skipEqImm | skipNeImm | skipEqReg | skipNeReg =>
    cases h; exact .inl (congrArg Host.Outcome.next (State.skipIf_withST _ v s))
  | add | sub | shiftRight | subReverse | shiftLeft =>
    cases h; exact .inl (congrArg Host.Outcome.next (State.writeFlagged_withST _ _ v s))
  | _ => cases h; exact .inl rfl

/-- Settles O41: the writers by the parts an instruction may change, the readers by `exec_withST`. -/
theorem timersAreWrittenOnlyByTheirInstructions : Obligations.TimersAreWrittenOnlyByTheirInstructions := by
  intro i s t h _ _
  refine ⟨fun hne => ?_, fun hne => ?_, fun v => ?_⟩
  · exact exec_agrees h .delay (Instr.not_mayChange_delay hne) (by simp)
  · exact exec_agrees h .sound (Instr.not_mayChange_sound hne) (by simp)
  · rcases exec_withST h v with hexec | hexec
    · exact ⟨_, hexec, State.replaceST_onlyChanges v t⟩
    · exact ⟨_, hexec, onlyChanges.refl _ t⟩

end Sys2Proof.Machine
end

section
/-! Proofs of the display instruction draw-sprite (40_display.md). -/

namespace Sys2Proof

theorem Instr.fitsXYN_of_encode {i : Instr} {c x y n : Nibble} (hw : encode i = packXYN c x y n)
    (hm : i.row.mask = 0xF000) : Machine.fitsXYN i.row.pattern (encode i) x y n :=
  ⟨hm ▸ i.encode_and_mask, hw ▸ xOf_packXYN c x y n, hw ▸ yOf_packXYN c x y n, hw ▸ nOf_packXYN c x y n⟩

end Sys2Proof

namespace Sys2Proof.Machine

theorem flagByte_eq_one_iff (f : Bool) : flagByte f = 1 ↔ f = true := by cases f <;> decide

theorem flagByte_decide (p : Prop) [Decidable p] : flagByte (decide p) = if p then 1 else 0 := by
  by_cases h : p <;> simp [flagByte, h]

theorem flagByte_of_not {f : Bool} (h : ¬ f = true) : flagByte f = 0 := by simp [flagByte, h]

/-- A lit pixel of `s` meets a lit bit of the sprite `cov`. -/
def collides (s : State) (cov : Nat → Nat → Bool) : Prop :=
  ∃ (c : Fin 64) (r : Fin 32), s.pixel c r = true ∧ cov c.val r.val = true

/-- A draw in bounds: the sprite is XORed in, VF is the collision flag, and one frame is pushed. -/
theorem exec_drawSprite_of_inBounds {x y n : Nibble} {s : State} (h : n.toNat = 0 ∨ s.I.toNat + n.toNat ≤ 0x1000) :
    ∃ t hit, exec (.drawSprite x y n) s = .next t ∧ (∀ c r, t.pixel c r = (s.pixel c r ^^ s.sprite x y n c r)) ∧
      t.reg 0xF = flagByte hit ∧ (hit = true ↔ collides s (s.sprite x y n)) ∧ pushesOnce s t ∧
      onlyChanges (fun p => p = .frames ∨ p = .reg 0xF ∨ ∃ c r, p = .pixel c r) s t := by
  obtain ⟨fb, hit, ⟨hpixel, hhit⟩, hexec⟩ := execDrawSprite_inBounds (x := x) (y := y) h
  refine ⟨_, hit, hexec, hpixel, ?_, ?_, State.pushFrame_pushesOnce _, ?_⟩
  · rw [State.reg_pushFrame, State.reg_setReg_self]
  · rw [hhit, or_iff_right Bool.false_ne_true]
    exact Iff.rfl
  · refine .trans ?_ ((State.pushFrame_onlyChanges _).mono fun _ => Or.inl)
    refine .trans ?_ ((State.setReg_onlyChanges 0xF _ _).mono fun _ hp => .inr (.inl hp))
    exact (State.replaceFb_onlyChanges fb s).mono fun _ hp => .inr (.inr hp)

/-- Settles O13: the drawing loops draw the picture `State.sprite` in bounds; out of bounds the check fails first. -/
theorem drawSpriteXorsAndReportsCollision : Obligations.DrawSpriteXorsAndReportsCollision := by
  intro x y n s
  refine ⟨(Instr.drawSprite x y n).fitsXYN_of_encode rfl rfl, fun h => ?_, fun hn h => ?_⟩
  · obtain ⟨t, hit, hexec, hpixel, hVF, hhit, hpush, hframe⟩ :=
      exec_drawSprite_of_inBounds (x := x) (y := y) (n := n) (s := s) (by omega)
    refine ⟨t, hexec, hpixel, fun hc => ?_, fun hc => ?_, hpush, hframe⟩
    · exact hVF.trans ((flagByte_eq_one_iff hit).2 (hhit.2 hc))
    · exact hVF.trans (flagByte_of_not fun hset => hc (hhit.1 hset))
  · exact ⟨_, exec_drawSprite_of_outOfBounds hn (by omega), State.fatalIn_stopsWith _ _ _ _⟩

/-- The sprite depends on the anchor registers, `I` and memory alone. -/
theorem State.sprite_congr {x y n : Nibble} {s t : State} (hx : t.reg x = s.reg x) (hy : t.reg y = s.reg y)
    (hI : t.I = s.I) (hbyte : ∀ a, t.readByte a = s.readByte a) : t.sprite x y n = s.sprite x y n := by
  have hbytes : t.readBytes (t.dataAddr 0) n.toNat = s.readBytes (s.dataAddr 0) n.toNat := by
    simp only [State.readBytes, State.dataAddr, hI, hbyte]
  funext c r
  rw [State.sprite, State.sprite, hx, hy, hbytes]

/-- Settles O14: the first draw leaves what the sprite depends on, so the second XORs the same picture again. -/
theorem drawingTwiceRestoresTheFrame : Obligations.DrawingTwiceRestoresTheFrame := by
  intro x y n s hx hy h
  obtain ⟨t, -, hexec, hpixel, -, -, -, hframe⟩ :=
    exec_drawSprite_of_inBounds (x := x) (y := y) (n := n) (s := s) (by omega)
  have hI : t.I = s.I := hframe .index (by simp)
  have hsprite : t.sprite x y n = s.sprite x y n :=
    State.sprite_congr (hframe (.reg x) (by simpa using hx)) (hframe (.reg y) (by simpa using hy)) hI
      fun a => hframe (.byte a) (by simp)
  obtain ⟨u, hit, hexec', hpixel', hVF, hhit, -, -⟩ :=
    exec_drawSprite_of_inBounds (x := x) (y := y) (n := n) (s := t) (by rw [hI]; omega)
  refine ⟨t, u, hexec, hexec', fun c r => ?_, ?_⟩
  · rw [hpixel', hpixel, hsprite, Bool.xor_assoc, Bool.xor_self, Bool.xor_false]
  · rw [hVF, flagByte_eq_one_iff, hhit, hsprite]
    exact Iff.rfl

end Sys2Proof.Machine
end

section
/-! Proofs of the control transfers call and jump-offset (41_control_flow.md). -/

namespace Sys2Proof.Machine

theorem exec_jumpOffset (nnn : Addr12) (s : State) :
    exec (.jumpOffset nnn) s = .next { s with pc := offsetTarget nnn (s.reg 0x0) } := rfl

/-- Settles O18: the two cases of the stack's depth. -/
theorem callPushesTheReturnAddress : Obligations.CallPushesTheReturnAddress := by
  intro nnn s
  refine ⟨(Instr.call nnn).fitsNNN_of_encode rfl rfl, fun h => ?_, fun h => ?_⟩
  · exact ⟨_, exec_call_of_room h, rfl, zext16_toNat nnn, State.replacePcAndStack_onlyChanges _ _ s⟩
  · exact ⟨_, exec_call_of_full h, State.fatalIn_stopsWith _ _ _ _⟩

/-- Settles O19: the return pops what the call pushed. -/
theorem returnAfterCallResumes : Obligations.ReturnAfterCallResumes := fun _ _ h =>
  ⟨_, _, exec_call_of_room h, exec_ret_of_stack_cons rfl, rfl, rfl⟩

/-- Settles O22: the sum of 12 bits and 8 fits the 16 bits of `pc`. -/
theorem jumpOffsetAddsVZero : Obligations.JumpOffsetAddsVZero := fun nnn s =>
  ⟨(Instr.jumpOffset nnn).fitsNNN_of_encode rfl rfl, _, exec_jumpOffset nnn s, offsetTarget_toNat nnn _,
    State.replacePc_onlyChanges _ s⟩

end Sys2Proof.Machine
end

section
/-! Proofs of the flag-writing ALU instructions and of random (42_alu.md). -/

namespace Sys2Proof.Machine

/-- The flagged write of R182 is `writesFlagged`, whatever numbers the result and the flag are given as. -/
theorem State.writeFlagged_writesFlagged (s : State) (d : Nibble) {r : Byte × Bool} {res : Nat} {flag : Bool}
    (hres : r.1.toNat = res) (hflag : r.2 = flag) : writesFlagged s (s.writeFlagged d r) d res flag := by
  subst hres hflag
  refine ⟨fun hd => ⟨?_, ?_⟩, ?_, ?_, State.writeFlagged_onlyChanges d r s⟩
  · rw [State.reg_writeFlagged, if_pos ⟨rfl, .inl hd⟩]
  · rw [State.reg_writeFlagged, if_neg fun h => hd h.1.symm, if_pos rfl]
  · rintro rfl horder
    rw [State.reg_writeFlagged, if_pos ⟨rfl, .inr horder⟩]
  · rintro rfl horder
    rw [State.reg_writeFlagged, if_neg (by simp [horder]), if_pos rfl]

theorem State.setReg_comm {x y : Nibble} (h : x ≠ y) (a b : Byte) (s : State) :
    (s.setReg x a).setReg y b = (s.setReg y b).setReg x a := by
  have hne : x.toNat ≠ y.toNat := fun heq => h (BitVec.eq_of_toNat_eq heq)
  simp only [State.setReg, Vector.set_comm _ _ hne]

/-- Settles O26: the two writes commute where they go to two registers. -/
theorem flaggedWriteFollowsTheOrder : Obligations.FlaggedWriteFollowsTheOrder := fun d res flag s =>
  ⟨s.writeFlagged_writesFlagged d rfl rfl, fun hd => State.setReg_comm (Ne.symm hd) (flagByte flag) res s⟩

/-! ### What each instruction answers -/

theorem exec_add (x y : Nibble) (s : State) :
    exec (.add x y) s = .next (s.writeFlagged x (aluAdd (s.reg x) (s.reg y))) := rfl

theorem exec_sub (x y : Nibble) (s : State) :
    exec (.sub x y) s = .next (s.writeFlagged x (aluSub (s.reg x) (s.reg y))) := rfl

theorem exec_shiftRight (x y : Nibble) (s : State) :
    exec (.shiftRight x y) s = .next (s.writeFlagged x (aluShiftRight (s.reg x))) := rfl

theorem exec_shiftLeft (x y : Nibble) (s : State) :
    exec (.shiftLeft x y) s = .next (s.writeFlagged x (aluShiftLeft (s.reg x))) := rfl

theorem exec_subReverse (x y : Nibble) (s : State) :
    exec (.subReverse x y) s =
      .next (s.writeFlagged (subReverseDestOf s.params x y) (aluSub (s.reg y) (s.reg x))) := rfl

theorem exec_random (x : Nibble) (nn : Byte) (s : State) :
    exec (.random x nn) s =
      .next (State.setReg x (Config.randByte s.randDraws &&& nn) { s with randDraws := s.randDraws + 1 }) := rfl

theorem subReverseDestOf_of_vy {p : Params} (h : p.subReverseDest = .vy) (x y : Nibble) :
    subReverseDestOf p x y = y := by
  simp only [subReverseDestOf, h]

theorem subReverseDestOf_of_vx {p : Params} (h : p.subReverseDest = .vx) (x y : Nibble) :
    subReverseDestOf p x y = x := by
  simp only [subReverseDestOf, h]

theorem aluShiftRight_flag (a : Byte) : (aluShiftRight a).2 = a.getLsbD 0 := by
  simp [aluShiftRight, BitVec.getLsbD, Nat.testBit_zero]

theorem aluShiftLeft_flag (a : Byte) : (aluShiftLeft a).2 = a.getLsbD 7 := by
  simp [aluShiftLeft, BitVec.getLsbD, Nat.testBit_eq_decide_div_mod_eq]

theorem State.replaceRandDraws_onlyChanges (k : Nat) (s : State) :
    onlyChanges (· = .randDraws) s { s with randDraws := k } := by
  intro p hp
  cases p with
  | randDraws => exact absurd rfl hp
  | _ => rfl

/-! ### The statements -/

/-- Settles O27: a flagged write of the ALU's sum and carry. -/
theorem addWritesSumAndCarry : Obligations.AddWritesSumAndCarry := fun x y s =>
  ⟨(Instr.add x y).fitsXYF_of_encode rfl rfl, _, exec_add x y s,
    s.writeFlagged_writesFlagged x (aluAdd_toNat _ _) rfl⟩

/-- Settles O28: a flagged write of the ALU's difference and its no-borrow flag. -/
theorem subWritesDifferenceAndNoBorrow : Obligations.SubWritesDifferenceAndNoBorrow := fun x y s =>
  ⟨(Instr.sub x y).fitsXYF_of_encode rfl rfl, _, exec_sub x y s,
    s.writeFlagged_writesFlagged x (aluSub_toNat _ _) rfl⟩

/-- Settles O29: a flagged write each, of the shifted value and the bit shifted out. -/
theorem shiftsWriteTheBitShiftedOut : Obligations.ShiftsWriteTheBitShiftedOut := by
  intro x y s
  refine ⟨(Instr.shiftRight x y).fitsXYF_of_encode rfl rfl, (Instr.shiftLeft x y).fitsXYF_of_encode rfl rfl, ?_, ?_⟩
  · exact ⟨_, exec_shiftRight x y s,
      s.writeFlagged_writesFlagged x (aluShiftRight_toNat _) (aluShiftRight_flag _)⟩
  · exact ⟨_, exec_shiftLeft x y s, s.writeFlagged_writesFlagged x (aluShiftLeft_toNat _) (aluShiftLeft_flag _)⟩

/-- Settles O30: a flagged write to the destination the parameter selects. -/
theorem subReverseWritesTheParameterDestination : Obligations.SubReverseWritesTheParameterDestination := by
  intro x y s
  refine ⟨(Instr.subReverse x y).fitsXYF_of_encode rfl rfl, _, exec_subReverse x y s, fun h => ?_, fun h => ?_⟩
  · rw [subReverseDestOf_of_vy h]
    exact s.writeFlagged_writesFlagged y (aluSub_toNat _ _) rfl
  · rw [subReverseDestOf_of_vx h]
    exact s.writeFlagged_writesFlagged x (aluSub_toNat _ _) rfl

/-- Settles O31: the draw and then one register write. -/
theorem randomMasksOneDraw : Obligations.RandomMasksOneDraw := by
  intro x nn s
  refine ⟨(Instr.random x nn).fitsXNN_of_encode rfl rfl, _, exec_random x nn s, State.reg_setReg_self _ _ _, rfl, ?_⟩
  exact ((State.replaceRandDraws_onlyChanges _ s).mono fun _ => Or.inr).trans
    ((State.setReg_onlyChanges x _ _).mono fun _ => Or.inl)

end Sys2Proof.Machine
end

section
/-! Proofs of the index and memory instructions that remain (43_index_memory.md). -/

namespace Sys2Proof.Machine

/-! ### add-to-index -/

theorem exec_addToIndex_of_flag {x : Nibble} {s : State} (h : s.params.indexOverflowVf = true) :
    exec (.addToIndex x) s =
      .next (State.setReg 0xF (flagByte (indexOverflow s.I (s.reg x)))
        { s with I := BitVec.ofNat 16 (indexSum s.I (s.reg x)) }) := by
  simp only [exec, execAddToIndex, if_pos h]

theorem exec_addToIndex_of_noFlag {x : Nibble} {s : State} (h : ¬ s.params.indexOverflowVf = true) :
    exec (.addToIndex x) s = .next { s with I := BitVec.ofNat 16 (indexSum s.I (s.reg x)) } := by
  simp only [exec, execAddToIndex, if_neg h]

/-- Settles O33: the two values of `index_overflow_vf`. -/
theorem addToIndexWrapsAtSixteenBits : Obligations.AddToIndexWrapsAtSixteenBits := by
  intro x s
  refine ⟨(Instr.addToIndex x).fitsXF_of_encode rfl rfl, ?_⟩
  by_cases h : s.params.indexOverflowVf = true
  · refine ⟨_, exec_addToIndex_of_flag h, BitVec.toNat_ofNat _ _, fun _ => ?_, ?_⟩
    · exact (State.reg_setReg_self _ _ _).trans (flagByte_decide _)
    · exact ((State.replaceI_onlyChanges _ s).mono fun _ => Or.inl).trans
        ((State.setReg_onlyChanges 0xF _ _).mono fun _ hp => .inr ⟨h, hp⟩)
  · exact ⟨_, exec_addToIndex_of_noFlag h, BitVec.toNat_ofNat _ _, fun h' => absurd h' h,
      (State.replaceI_onlyChanges _ s).mono fun _ => Or.inl⟩

/-! ### Stores -/

theorem State.readByte_writeBytes {s : State} (hs : s.memCanonical) (a : Nat) {bs : List Byte} {k : Nat}
    (hk : k < bs.length) : (s.writeBytes a bs).readByte (a + k) = bs[k] :=
  Memory.read_writeBytes_inside hs.1 k hk

theorem bcdDigits_toNat (b : Byte) :
    (bcdDigits b)[0].toNat = b.toNat / 100 ∧ (bcdDigits b)[1].toNat = b.toNat / 10 % 10 ∧
      (bcdDigits b)[2].toNat = b.toNat % 10 := by
  have := b.isLt
  simp only [bcdDigits, List.getElem_cons_zero, List.getElem_cons_succ, BitVec.toNat_ofNat]
  omega

/-- Settles O34: in bounds a store of the three digits, out of bounds the fatal error before it. -/
theorem bcdStoresThreeDigits : Obligations.BcdStoresThreeDigits := by
  intro x s hs
  refine ⟨(Instr.bcd x).fitsXF_of_encode rfl rfl, fun h => ?_, fun h => ?_⟩
  · have hread (k : Nat) (hk : k < 3) := State.readByte_writeBytes hs (s.dataAddr 0) (bs := bcdDigits (s.reg x)) hk
    obtain ⟨hhundreds, htens, hunits⟩ := bcdDigits_toNat (s.reg x)
    refine ⟨_, exec_bcd_of_inBounds (by omega), ?_, ?_, ?_, State.writeBytes_onlyChanges _ (bcdDigits (s.reg x)) s⟩
    · exact (congrArg BitVec.toNat (hread 0 (by decide))).trans hhundreds
    · exact (congrArg BitVec.toNat (hread 1 (by decide))).trans htens
    · exact (congrArg BitVec.toNat (hread 2 (by decide))).trans hunits
  · exact ⟨_, exec_bcd_of_outOfBounds (by omega), State.fatalIn_stopsWith _ _ _ _⟩

theorem lt_regCount {x : Nibble} {k : Nat} : k < regCount x ↔ k ≤ x.toNat := Nat.lt_succ_iff

theorem add_regCount_le {a : Nat} {x : Nibble} : a + regCount x ≤ 0x1000 ↔ a + x.toNat ≤ 0xFFF := by
  unfold regCount
  omega

theorem lt_add_regCount {a : Nat} {x : Nibble} : 0x1000 < a + regCount x ↔ 0xFFF < a + x.toNat := by
  unfold regCount
  omega

/-- The bytes store-regs leaves in memory. -/
theorem State.readByte_storedRegs {s : State} (hs : s.memCanonical) {x : Nibble} {k : Nat} (hk : k ≤ x.toNat) :
    (s.writeBytes (s.dataAddr 0) (s.firstRegs (regCount x))).readByte (s.dataAddr k) = s.reg (BitVec.ofNat 4 k) := by
  have hlen : k < (s.firstRegs (regCount x)).length := by rwa [State.length_firstRegs, lt_regCount]
  exact (State.readByte_writeBytes hs (s.dataAddr 0) hlen).trans (State.getElem_firstRegs s _ k hlen)

/-- Settles O35: in bounds a store of the first registers, out of bounds the fatal error before it. -/
theorem storeRegsStoresTheFirstRegisters : Obligations.StoreRegsStoresTheFirstRegisters := by
  intro x s hs
  refine ⟨(Instr.storeRegs x).fitsXF_of_encode rfl rfl, fun h => ?_, fun h => ?_⟩
  · refine ⟨_, exec_storeRegs_of_inBounds (add_regCount_le.2 h), fun k hk => ?_, ?_⟩
    · rw [State.readByte_storedRegs hs hk, BitVec.ofNat_toNat, BitVec.setWidth_eq]
    · have hframe := State.writeBytes_onlyChanges (s.dataAddr 0) (s.firstRegs (regCount x)) s
      rwa [State.length_firstRegs] at hframe
  · exact ⟨_, exec_storeRegs_of_outOfBounds (lt_add_regCount.2 h), State.fatalIn_stopsWith _ _ _ _⟩

/-- Settles O37: the two bytes at `pc` are the stored registers. -/
theorem storedBytesAreFetchedNext : Obligations.StoredBytesAreFetchedNext := by
  intro x s k hs hbounds hk hpc
  refine ⟨_, exec_storeRegs_of_inBounds (add_regCount_le.2 hbounds), ?_⟩
  have hhi := State.readByte_storedRegs hs (x := x) (k := k) (by omega)
  have hlo := State.readByte_storedRegs hs hk
  rw [State.wordAtPc, State.writeBytes_pc, hpc, hhi]
  exact congrArg _ hlo

/-! ### Loads -/

/-- Settles O36: in bounds a load of the first registers, out of bounds the fatal error before it. -/
theorem loadRegsLoadsTheFirstRegisters : Obligations.LoadRegsLoadsTheFirstRegisters := by
  intro x s
  refine ⟨(Instr.loadRegs x).fitsXF_of_encode rfl rfl, fun h => ?_, fun h => ?_⟩
  · have hcount : regCount x ≤ 16 := x.isLt
    refine ⟨_, exec_loadRegs_of_inBounds (add_regCount_le.2 h), fun k hk => ?_, ?_⟩
    · rw [State.reg_loadRegsFrom _ _ hcount, if_pos (lt_regCount.2 hk)]
      rfl
    · refine (State.loadRegsFrom_onlyChanges _ _ s).mono fun p ⟨k, hk, hp⟩ => ⟨BitVec.ofNat 4 k, ?_, hp⟩
      rw [BitVec.toNat_ofNat, Nat.mod_eq_of_lt (by omega)]
      exact lt_regCount.1 hk
  · exact ⟨_, exec_loadRegs_of_outOfBounds (lt_add_regCount.2 h), State.fatalIn_stopsWith _ _ _ _⟩

end Sys2Proof.Machine
end

section
/-! Proofs about construction (70_reset_and_hazards.md section 1). -/

namespace Sys2Proof.Machine

theorem construct_of_fits {p : Params} {program : List Byte} (h : program.length ≤ 3584) :
    State.construct p program =
      .ok { State.reset with params := p, mem := Memory.writeBytes p.font 0x200 program [] } :=
  if_pos (decide_eq_true h)

theorem construct_of_tooLarge {p : Params} {program : List Byte} (h : 3584 < program.length) :
    State.construct p program = .error .programTooLarge :=
  if_neg fun hfits => Nat.not_le.2 h (of_decide_eq_true hfits)

theorem Memory.unlisted_eq (font : Vector Byte 80) (a : Nat) :
    Memory.unlisted font a = if 0x050 ≤ a ∧ a < 0x0A0 then (font[a - 0x050]?).getD 0 else 0 := by
  unfold Memory.unlisted
  split
  · next h => rw [Vector.getElem?_eq_getElem (by omega), Option.getD_some]
  · rfl

theorem Memory.unlisted_of_le (font : Vector Byte 80) {a : Nat} (h : 0x0A0 ≤ a) : Memory.unlisted font a = 0 :=
  dif_neg (by omega)

/-- Memory after construction: the program from 0x200, and what an unlisted address reads as elsewhere. -/
theorem Memory.read_constructed (font : Vector Byte 80) (program : List Byte) (a : Nat) :
    Memory.read font a (Memory.writeBytes font 0x200 program []) =
      if 0x200 ≤ a ∧ a < 0x200 + program.length then (program[a - 0x200]?).getD 0 else Memory.unlisted font a := by
  split
  · next h =>
    have hk : a - 0x200 < program.length := by omega
    have hread := Memory.read_writeBytes_inside (font := font) (a := 0x200) (m := []) List.Pairwise.nil _ hk
    rw [Nat.add_sub_cancel' h.1] at hread
    rw [hread, List.getElem?_eq_getElem hk, Option.getD_some]
  · next h => rw [Memory.read_writeBytes_outside (by omega)]; rfl

theorem State.reset_reg (x : Nibble) : State.reset.reg x = 0 := Vector.getElem_replicate _

/-- Settles O49: every field but memory is the one of the reset state. -/
theorem constructionSetsEveryPieceOfState : Obligations.ConstructionSetsEveryPieceOfState := by
  intro p program h
  refine ⟨_, construct_of_fits h, State.reset_reg, rfl, rfl, rfl, FrameBuffer.pixel_blank, fun a _ => ?_, rfl, rfl, rfl,
    rfl, rfl, rfl⟩
  rw [← Memory.unlisted_eq]
  exact Memory.read_constructed p.font program a

theorem State.wordAtPc_of_emptyMemory {s : State} (hpc : s.pc = 0x200) (hmem : s.mem = []) : s.wordAtPc = 0 := by
  have hbyte (a : Nat) (ha : 0x0A0 ≤ a) : s.readByte a = 0 := by
    rw [State.readByte, hmem]
    exact Memory.unlisted_of_le s.params.font ha
  rw [State.wordAtPc, hpc, hbyte _ (by decide), hbyte _ (by decide)]
  rfl

/-- R301: the first fetch from a memory that lists nothing reads the zero word, which is no instruction. -/
theorem step_of_emptyMemory {s : State} (hready : s.readyToFetch) (hpc : s.pc = 0x200) (hmem : s.mem = []) :
    ∃ u, step s = .next u ∧ stopsWith u .invalidOpcode 0x200 (some 0) none := by
  have hword := State.wordAtPc_of_emptyMemory hpc hmem
  obtain ⟨u, hstep, hstops⟩ :=
    invalidWordStopsTheEngine s hready (by rw [hpc]; decide) (by rw [hword]; rfl)
  rw [hpc, hword] at hstops
  exact ⟨u, hstep, hstops⟩

/-- Settles O50: the length decides; started on the empty program, the machine fetches from a memory that lists
nothing. -/
theorem constructionRefusesALongProgram : Obligations.ConstructionRefusesALongProgram := by
  refine ⟨fun _ _ => construct_of_tooLarge, fun p => ?_⟩
  obtain ⟨u, hstep, hstops⟩ :=
    step_of_emptyMemory (s := { State.reset with params := p, run := .running }) ⟨rfl, rfl, .inl rfl⟩ rfl rfl
  exact ⟨_, _, u, construct_of_fits (Nat.zero_le _), step_of_schedule_cons (u := .start) (ts := []) rfl, rfl, hstep, hstops⟩

end Sys2Proof.Machine
end
